-- ==== Sys2Proof/Word.lean ====
section
/-! DEFINITION. The plain types every other file names. A word (the value of a memory cell, of an operand, of a queued input)
is a mathematical integer, `Int` (00_scope.md R6, 20_memory.md R40); the memory has no bytes (R46). The address of a cell is a
natural number, `Nat` (R40); an address a program computes may be negative, so it is an `Int` until the memory controller has
looked at its sign (R42, R43). Declared here: the form of a parameter (30_encoding.md R66) and the reason of a failure
(60_exceptions.md R160). -/

namespace Sys2Proof

/-- What one mode digit of an instruction word says of its parameter (30_encoding.md R66). -/
inductive Mode where
  /-- Digit 0: the parameter word is the address of the operand, or of the cell to write. -/
  | position
  /-- Digit 1: the parameter word is itself the operand; illegal on a write parameter. -/
  | immediate
  /-- A digit from 2 to 9, which is illegal on every parameter the instruction has. -/
  | illegal (digit : Nat)
deriving DecidableEq, Repr

/-- The reason a failure leaves in the status (60_exceptions.md R160). -/
inductive FailReason where
  /-- Code 1: the fetched word's opcode is none of the nine, or the word is negative under the default decoding. -/
  | invalidOpcode
  /-- Code 2: a negative address of an operand, of a write or of a taken jump, or one at or above a finite `MEM_LIMIT`. -/
  | invalidAddress
  /-- Code 3: a mode digit from 2 to 9 on a parameter the instruction has, or, under `STRICT_MODES`, a nonzero ignored digit. -/
  | invalidMode
  /-- Code 4: immediate mode on a write parameter. -/
  | immediateWrite
  /-- Code 5, only under `UNSET_READ = fault`: a read of a cell outside the domain. -/
  | unsetAddress
  /-- Code 6, only under a finite `WORD_BITS` with `OVERFLOW_POLICY = fault`: a sum or product outside the word range. -/
  | overflow
deriving DecidableEq, Repr

end Sys2Proof
end

