-- ==== Sys2Proof/Config.lean ====
section
/-! DEFINITION. The parameters a model takes (00_scope.md R6), each with its named options. The spec leaves no value open
beyond them (93_implementation_defined.md: no row is treated as `any value`), so this file declares no free value. -/

namespace Sys2Proof

/-- `OVERFLOW_POLICY` (R6, 92_eei_decisions.md D1): what a sum or product outside a finite word range does. -/
inductive OverflowPolicy where
  /-- The instance fails with `Overflow`. -/
  | fault
  /-- The result is reduced into the word range. -/
  | wrap
deriving DecidableEq, Repr

/-- `UNSET_READ` (R6, D3): what a read of a cell outside the domain returns. -/
inductive UnsetRead where
  /-- The read returns 0. -/
  | zero
  /-- The read fails with `UnsetAddress`. -/
  | fault
deriving DecidableEq, Repr

/-- `NEG_WORD_DECODE` (R6, 30_encoding.md R63, D5): how an instruction word below zero decodes. -/
inductive NegWordDecode where
  /-- It has no decoding; executing it fails with `InvalidOpcode`. -/
  | fault
  /-- Its digits are taken with the floored quotient and modulus. -/
  | floored
  /-- Its digits are those of its absolute value. -/
  | truncated
deriving DecidableEq, Repr

/-- The parameters of 00_scope.md R6 that concern the block. `none` is the value `unbounded`. -/
structure Params where
  /-- `WORD_BITS`: the width of a cell's value. -/
  wordBits : Option Nat
  /-- `OVERFLOW_POLICY`, reachable only when `wordBits` is finite. -/
  overflow : OverflowPolicy
  /-- `MEM_LIMIT`: the highest usable address plus one. -/
  memLimit : Option Nat
  /-- `UNSET_READ`. -/
  unsetRead : UnsetRead
  /-- `NEG_WORD_DECODE`. -/
  negWord : NegWordDecode
  /-- `STRICT_MODES`: whether a nonzero ignored digit is illegal. -/
  strictModes : Bool
  /-- `QUEUE_DEPTH`: the capacity of the input queue. -/
  queueDepth : Option Nat
deriving DecidableEq, Repr

/-- The value this spec gives each parameter (R6). `OVERFLOW_POLICY` is `OPEN` there and not reachable while `WORD_BITS`
is unbounded: DESIGN CHOICE `fault`, safe (notes/assumptions/3.md). -/
def Params.spec : Params where
  wordBits := none
  overflow := .fault
  memLimit := none
  unsetRead := .zero
  negWord := .fault
  strictModes := false
  queueDepth := none

end Sys2Proof
end

