-- ==== Sys2Proof/Syntax.lean ====
section
/-! DEFINITION. The instruction set whole: the nine rows of spec/opcode_table.json (30_encoding.md R64, R67). -/

namespace Sys2Proof

/-- A decoded instruction: its opcode and the modes of the parameters it has. The parameter WORDS are not part of it: the
decoder sees the instruction word alone (40_decode_and_step.md R80), and operand resolution reads each parameter word from
memory when the handler runs (R83 to R85). Mode digits of parameters an instruction lacks are ignored (30_encoding.md R68). -/
inductive Instr where
  /-- ADD, opcode 1, format F3RRW (41_arithmetic.md R100). -/
  | add (m1 m2 m3 : Mode)
  /-- MUL, opcode 2, format F3RRW (R101). -/
  | mul (m1 m2 m3 : Mode)
  /-- IN, opcode 3, format F1W (42_io.md R110). -/
  | inp (m1 : Mode)
  /-- OUT, opcode 4, format F1R (R111). -/
  | outp (m1 : Mode)
  /-- JT, opcode 5, format F2RR (43_control.md R120). -/
  | jt (m1 m2 : Mode)
  /-- JF, opcode 6, format F2RR (R121). -/
  | jf (m1 m2 : Mode)
  /-- LT, opcode 7, format F3RRW (41_arithmetic.md R102). -/
  | lt (m1 m2 m3 : Mode)
  /-- EQ, opcode 8, format F3RRW (R103). -/
  | eq (m1 m2 m3 : Mode)
  /-- HLT, opcode 99, format F0 (43_control.md R122). -/
  | hlt
deriving DecidableEq, Repr

end Sys2Proof
end

