-- ==== Sys2Proof/WellFormed.lean ====
section
/-! DEFINITION. Which instruction terms an instruction word can encode (`WellFormed`: every mode is a decimal digit), and
which of those are legal encodings (`Legal`, 30_encoding.md R66, R68). The machine runs the illegal ones too: they fail. -/

namespace Sys2Proof

/-- A mode is well formed when it stands for exactly one decimal digit: `illegal d` is a digit from 2 to 9 (R66). -/
def Mode.wf : Mode → Bool
  | .position => true
  | .immediate => true
  | .illegal d => decide (2 ≤ d) && decide (d ≤ 9)

/-- A read parameter's mode is legal when it is position or immediate (R66). -/
def Mode.legalRead : Mode → Bool
  | .position => true
  | .immediate => true
  | .illegal _ => false

/-- A write parameter's mode is legal when it is position (R66, R68). -/
def Mode.legalWrite : Mode → Bool
  | .position => true
  | .immediate => false
  | .illegal _ => false

/-- The modes of an instruction, in parameter order (R64). -/
def Instr.modes : Instr → List Mode
  | .add m1 m2 m3 => [m1, m2, m3]
  | .mul m1 m2 m3 => [m1, m2, m3]
  | .inp m1 => [m1]
  | .outp m1 => [m1]
  | .jt m1 m2 => [m1, m2]
  | .jf m1 m2 => [m1, m2]
  | .lt m1 m2 m3 => [m1, m2, m3]
  | .eq m1 m2 m3 => [m1, m2, m3]
  | .hlt => []

/-- An instruction is well formed when each of its modes is one decimal digit. -/
def Instr.wf (i : Instr) : Bool := i.modes.all Mode.wf

/-- `Instr.wf` as a proposition. -/
abbrev Instr.WellFormed (i : Instr) : Prop := i.wf = true

/-- An instruction is legal when no mode of it is an illegal encoding of R68. -/
def Instr.legal : Instr → Bool
  | .add m1 m2 m3 => m1.legalRead && m2.legalRead && m3.legalWrite
  | .mul m1 m2 m3 => m1.legalRead && m2.legalRead && m3.legalWrite
  | .inp m1 => m1.legalWrite
  | .outp m1 => m1.legalRead
  | .jt m1 m2 => m1.legalRead && m2.legalRead
  | .jf m1 m2 => m1.legalRead && m2.legalRead
  | .lt m1 m2 m3 => m1.legalRead && m2.legalRead && m3.legalWrite
  | .eq m1 m2 m3 => m1.legalRead && m2.legalRead && m3.legalWrite
  | .hlt => true

/-- `Instr.legal` as a proposition. -/
abbrev Instr.Legal (i : Instr) : Prop := i.legal = true

end Sys2Proof
end

