-- ==== Sys2Proof/Decode.lean ====
section
/-! DEFINITION. The decoder (40_decode_and_step.md R80 to R82), the dispatch table's choice of an instruction (R86, R87), the
check of ignored digits (30_encoding.md R68), and the encoder, written from the same field table (R61, R71). Fields are
DECIMAL digits of an integer, so the decoder takes the word, not bytes (R46, R61). -/

namespace Sys2Proof

/-- Decimal digit `k` of `w`, counted from 0 at the units digit (00_scope.md R8). -/
def digit (w : Int) (k : Nat) : Nat := ((w / 10 ^ k) % 10).toNat

/-- What `Decode` returns for a word it decodes (R80): the opcode and the three mode digits. -/
structure Decoded where
  /-- The opcode, 0 to 99. -/
  opc : Nat
  /-- The mode digit of parameter 1, 0 to 9. -/
  m1 : Nat
  /-- The mode digit of parameter 2. -/
  m2 : Nat
  /-- The mode digit of parameter 3. -/
  m3 : Nat
deriving DecidableEq, Repr

/-- The four fields of a word (30_encoding.md R61), with the floored quotient and modulus of R8. -/
def fieldsOf (w : Int) : Decoded where
  opc := (w % 100).toNat
  m1 := digit w 2
  m2 := digit w 3
  m3 := digit w 4

/-- `Decode(w)` (R81). `none` is the output `neg`: a negative word under `NEG_WORD_DECODE = fault`. -/
def decode (neg : NegWordDecode) (w : Int) : Option Decoded :=
  if w < 0 then
    match neg with
    | .fault => none
    | .floored => some (fieldsOf w)
    | .truncated => some (fieldsOf (-w))
  else some (fieldsOf w)

/-- The operand form a mode digit selects (30_encoding.md R66). -/
def Mode.ofDigit : Nat → Mode
  | 0 => .position
  | 1 => .immediate
  | d => .illegal d

/-- The digit that selects an operand form. -/
def Mode.toDigit : Mode → Nat
  | .position => 0
  | .immediate => 1
  | .illegal d => d

/-- The dispatch table (R87): the instruction an opcode selects, with the modes of the parameters it has. `none` for an
opcode outside the nine. -/
def Instr.ofDecoded (d : Decoded) : Option Instr :=
  match d.opc with
  | 1 => some (.add (.ofDigit d.m1) (.ofDigit d.m2) (.ofDigit d.m3))
  | 2 => some (.mul (.ofDigit d.m1) (.ofDigit d.m2) (.ofDigit d.m3))
  | 3 => some (.inp (.ofDigit d.m1))
  | 4 => some (.outp (.ofDigit d.m1))
  | 5 => some (.jt (.ofDigit d.m1) (.ofDigit d.m2))
  | 6 => some (.jf (.ofDigit d.m1) (.ofDigit d.m2))
  | 7 => some (.lt (.ofDigit d.m1) (.ofDigit d.m2) (.ofDigit d.m3))
  | 8 => some (.eq (.ofDigit d.m1) (.ofDigit d.m2) (.ofDigit d.m3))
  | 99 => some .hlt
  | _ => none

/-- The opcode of an instruction (30_encoding.md R67). -/
def Instr.opcode : Instr → Nat
  | .add _ _ _ => 1
  | .mul _ _ _ => 2
  | .inp _ => 3
  | .outp _ => 4
  | .jt _ _ => 5
  | .jf _ _ => 6
  | .lt _ _ _ => 7
  | .eq _ _ _ => 8
  | .hlt => 99

/-- The number of cells an instruction occupies, a function of the opcode alone (R60, R67). -/
def Instr.width : Instr → Nat
  | .add _ _ _ => 4
  | .mul _ _ _ => 4
  | .inp _ => 2
  | .outp _ => 2
  | .jt _ _ => 3
  | .jf _ _ => 3
  | .lt _ _ _ => 4
  | .eq _ _ _ => 4
  | .hlt => 1

/-- The integer whose digits from the hundred-thousands up are ignored (R61): the word itself, or its absolute value where a
negative word's fields are taken from that (R81). -/
def digitSource (neg : NegWordDecode) (w : Int) : Int :=
  match neg with
  | .truncated => if w < 0 then -w else w
  | _ => w

/-- Whether some digit of `w` that the instruction does not use is nonzero (R68): the mode digit of a parameter it lacks, or
any digit from the hundred-thousands up. For a negative word decoded with the floored quotient that quotient is itself
nonzero (DESIGN CHOICE, notes/assumptions/5.md). -/
def ignoredNonzero (neg : NegWordDecode) (w : Int) (d : Decoded) (i : Instr) : Bool :=
  ([d.m1, d.m2, d.m3].drop (i.width - 1)).any (fun m => decide (m ≠ 0)) || decide (digitSource neg w / 100000 ≠ 0)

/-- Decoding a word to an instruction, or to the reason of the failure that executing it raises before any handler runs, in
the order of R86: the sign, the opcode, then the ignored digits. -/
def decodeInstr (c : Params) (w : Int) : Except FailReason Instr :=
  match decode c.negWord w with
  | none => .error .invalidOpcode
  | some d =>
    match Instr.ofDecoded d with
    | none => .error .invalidOpcode
    | some i => if c.strictModes && ignoredNonzero c.negWord w d i then .error .invalidMode else .ok i

/-- The encoder: the canonical word `opc + 100*m1 + 1000*m2 + 10000*m3`, with 0 for the parameters the instruction
lacks (R71). -/
def encode (i : Instr) : Int :=
  match i.modes.map Mode.toDigit with
  | [] => i.opcode
  | [d1] => i.opcode + 100 * d1
  | [d1, d2] => i.opcode + 100 * d1 + 1000 * d2
  | d1 :: d2 :: d3 :: _ => i.opcode + 100 * d1 + 1000 * d2 + 10000 * d3

/-- The instruction the decoder reads, under the parameters of R6, from the word whose binary digits are those of `w`. An
instruction word is ONE cell holding an unbounded integer, so the bits above the table's count are already 0 in `w` and
the number is the word (notes/assumptions/13.md). -/
def decodeTableWord (_nbits w : Nat) : Option Instr :=
  match decodeInstr Params.spec (w : Int) with
  | .ok i => some i
  | .error _ => none

end Sys2Proof
end

