-- ==== Sys2Proof/Machine/State.lean ====
section
/-! DEFINITION. The state of one VM instance (10_state.md R20 to R33), the ways the model itself may stop, and the state
after reset. -/

namespace Sys2Proof.Machine

/-- The memory: a finite partial map from addresses to integers (R20, R31), held as pairs of an address and its value with
the addresses strictly rising. The listed addresses are the DOMAIN of 20_memory.md R41. An unlisted address holds no value;
what a read of it returns is `UNSET_READ` (R42; notes/assumptions/1.md). -/
abbrev Memory := List (Nat × Int)

/-- The two reasons of a suspension (R26). -/
inductive SuspendKind where
  /-- Stopped at an input instruction whose queue was empty. -/
  | needsInput
  /-- Stopped just after an output instruction. -/
  | producedOutput
deriving DecidableEq, Repr

/-- The status (R26, 90_conflicts.md C3). -/
inductive Status where
  /-- Loaded and never run. -/
  | ready
  /-- Inside a call of `run_until_suspend`; never visible to the host. -/
  | running
  /-- Waiting for the host's next call. -/
  | suspended (kind : SuspendKind)
  /-- Executed a halt; terminal. -/
  | halted
  /-- A failure occurred; terminal. -/
  | failed (reason : FailReason)
deriving DecidableEq, Repr

/-- The state: the five fields of R20 and, as a sixth field of the model's own, the parameters of 00_scope.md R6 it runs
under, which no operation changes (notes/assumptions/3.md). -/
structure State where
  /-- The instruction pointer (R22). -/
  ip : Nat
  /-- The memory (R31). -/
  mem : Memory
  /-- The input queue, head first (R30). -/
  inq : List Int
  /-- The last-output register: `none`, or the value of the most recent output instruction (R29). -/
  out : Option Int
  /-- The status (R26). -/
  status : Status
  /-- The parameters of R6 (the model's own field). -/
  cfg : Params
deriving DecidableEq, Repr

/-- Why a step stops with a fault: never. Every failure the spec describes is a status the instance ENTERS
(60_exceptions.md R162), a next state, and no behaviour of an instruction is left without an effect
(93_implementation_defined.md). So nothing raises a fault, and the type has no constructor (notes/assumptions/11.md). -/
inductive Fault
deriving DecidableEq, Repr

/-- Why a step is refused. -/
inductive Refusal where
  /-- An instruction whose meaning is not written: raised by exec's own arms alone, and by none of them now. Safe: the model
  stops where the hardware goes on. -/
  | notModelled (mnemonic : String)
deriving DecidableEq, Repr

/-- The machine right after reset with no program loaded, every field at its value of R33, under the parameter values of
R6: the state `new_instance([])` makes (R131). How a program comes to run from it is in notes/assumptions/2.md. -/
def State.reset : State where
  ip := 0
  mem := []
  inq := []
  out := none
  status := .ready
  cfg := Params.spec

end Sys2Proof.Machine
end

