-- ==== Sys2Proof/Machine/Ops.lean ====
section
/-! DEFINITION. The named operations over the instance's state: the sparse store, the memory controller's two primitives
(20_memory.md R42, R43), the one-field updates an instruction may make, raising a failure (60_exceptions.md R162) and
suspending (00_scope.md R11). -/

namespace Sys2Proof.Machine

/-- The value of a cell of the domain, `none` outside it (R41). -/
def Memory.lookup : Memory → Nat → Option Int
  | [], _ => none
  | (b, v) :: m, a => if b = a then some v else Memory.lookup m a

/-- Set one cell and add it to the domain, keeping the addresses rising (R43). -/
def Memory.insert : Memory → Nat → Int → Memory
  | [], a, v => [(a, v)]
  | (b, u) :: m, a, v =>
    if a < b then (a, v) :: (b, u) :: m
    else if a = b then (a, v) :: m
    else (b, u) :: Memory.insert m a v

/-- The memory is in its one canonical form: the addresses rise strictly. No listed value equals what an unlisted address
holds, since that is no value at all. -/
abbrev Memory.wf (m : Memory) : Prop := m.Pairwise (fun x y => x.1 < y.1)

/-- The program image: element `i` of the program at address `base + i` (10_state.md R33). -/
def Memory.image : Nat → List Int → Memory
  | _, [] => []
  | base, v :: vs => (base, v) :: Memory.image (base + 1) vs

/-- Whether an address is at or above a finite `MEM_LIMIT` (R42, R43). -/
def beyondLimit (c : Params) (a : Int) : Bool :=
  match c.memLimit with
  | none => false
  | some l => decide ((l : Int) ≤ a)

/-- `MemRead(a)` (R42). It changes nothing, so it answers a value or a failure and no state. -/
def memRead (s : State) (a : Int) : Except FailReason Int :=
  if a < 0 then .error .invalidAddress
  else if beyondLimit s.cfg a then .error .invalidAddress
  else
    match s.mem.lookup a.toNat with
    | some v => .ok v
    | none =>
      match s.cfg.unsetRead with
      | .zero => .ok 0
      | .fault => .error .unsetAddress

/-- Store to a cell whose address has been checked. -/
def putCell (a : Nat) (v : Int) (s : State) : State := { s with mem := s.mem.insert a v }

/-- `MemWrite(a, v)` (R43). -/
def memWrite (s : State) (a : Int) (v : Int) : Except FailReason State :=
  if a < 0 then .error .invalidAddress
  else if beyondLimit s.cfg a then .error .invalidAddress
  else .ok (putCell a.toNat v s)

/-- `ip <- ip + n`: the sequential advance (10_state.md R23). -/
def advance (n : Nat) (s : State) : State := { s with ip := s.ip + n }

/-- `ip <- target` (43_control.md R123). -/
def setIp (a : Nat) (s : State) : State := { s with ip := a }

/-- `s.out <- some(v)` (10_state.md R29). -/
def setOut (v : Int) (s : State) : State := { s with out := some v }

/-- `inq <- tail(inq)` (42_io.md R110). -/
def popInput (s : State) : State := { s with inq := s.inq.tail }

/-- `status <- Running` (40_decode_and_step.md R91). -/
def enterRunning (s : State) : State := { s with status := .running }

/-- `suspend(kind)` (00_scope.md R11). -/
def suspend (k : SuspendKind) (s : State) : State := { s with status := .suspended k }

/-- `status <- Halted` (43_control.md R122). -/
def halt (s : State) : State := { s with status := .halted }

/-- Failure entry, the block's only exception (60_exceptions.md R162): the status takes the reason and nothing else changes.
There is no return from it (R164). -/
def raiseFail (r : FailReason) (s : State) : State := { s with status := .failed r }

/-- How a step ends (R86, R89): with the handler's whole effect, or, when something in it raised a failure, with the state
the step began in and that failure's entry. -/
def runHandler (s : State) (h : Except FailReason State) : Host.Outcome State Fault Refusal :=
  match h with
  | .ok t => .next t
  | .error r => .next (raiseFail r s)

/-- `Halted` and `Failed(_)`, which only reset leaves (R90, R164). -/
def Status.terminal : Status → Bool
  | .ready => false
  | .running => false
  | .suspended _ => false
  | .halted => true
  | .failed _ => true

end Sys2Proof.Machine
end

