-- ==== Sys2Proof/Machine/Flags.lean ====
section
/-! DEFINITION. The block has no flags, condition codes or predicate registers (10_state.md R25). What stands in their place:
the integer a comparison writes (41_arithmetic.md R102, R103), the overflow check of a finite `WORD_BITS` (R104), and the
numeric STATUS register (10_state.md R27). -/

namespace Sys2Proof.Machine

/-- The value a comparison writes: exactly 1 or 0 (R102, R103). -/
def truth (b : Bool) : Int := if b then 1 else 0

/-- The integer of a finite word of `n` bits that agrees with `v` modulo `2 ^ n`: the range is that of two's complement
(DEDUCED, notes/assumptions/4.md). -/
def wrapWord (n : Nat) (v : Int) : Int := v.bmod (2 ^ n)

/-- Whether a value is in the word range of the parameters: always, while `WORD_BITS` is unbounded (R6, R104). -/
def inWordRange (c : Params) (v : Int) : Bool :=
  match c.wordBits with
  | none => true
  | some n => decide (wrapWord n v = v)

/-- The result of an addition or multiplication (R104): the exact integer where it is in the word range, else what
`OVERFLOW_POLICY` says. -/
def narrow (c : Params) (v : Int) : Except FailReason Int :=
  match c.wordBits with
  | none => .ok v
  | some n =>
    if wrapWord n v = v then .ok v
    else
      match c.overflow with
      | .fault => .error .overflow
      | .wrap => .ok (wrapWord n v)

/-- STATUS.KIND, bits 2:0 (R27). -/
def Status.kind : Status → BitVec 3
  | .ready => 0
  | .running => 1
  | .suspended .needsInput => 2
  | .suspended .producedOutput => 3
  | .halted => 4
  | .failed _ => 5

/-- The code of a failure reason (R27, 60_exceptions.md R160). -/
def reasonCode : FailReason → BitVec 4
  | .invalidOpcode => 1
  | .invalidAddress => 2
  | .invalidMode => 3
  | .immediateWrite => 4
  | .unsetAddress => 5
  | .overflow => 6

/-- STATUS.REASON, bits 6:3: 0 unless the status is `Failed` (R27). -/
def Status.reason : Status → BitVec 4
  | .ready => 0
  | .running => 0
  | .suspended _ => 0
  | .halted => 0
  | .failed r => reasonCode r

/-- The STATUS register: bit 7 zero, REASON, KIND (R27). -/
def Status.toReg (st : Status) : BitVec 8 := ((0 : BitVec 1) ++ st.reason) ++ st.kind

/-- The failure reason a code stands for; 0 and 7 to 15 stand for none (R27). -/
def reasonOfCode (c : BitVec 4) : Option FailReason :=
  match c.toNat with
  | 1 => some .invalidOpcode
  | 2 => some .invalidAddress
  | 3 => some .invalidMode
  | 4 => some .immediateWrite
  | 5 => some .unsetAddress
  | 6 => some .overflow
  | _ => none

/-- The status a STATUS value stands for; `none` for a reserved value, which no model has (R27, 93 U15). -/
def Status.ofReg (b : BitVec 8) : Option Status :=
  let reason : BitVec 4 := b.extractLsb' 3 4
  if b.getLsbD 7 then none
  else
    match (b.extractLsb' 0 3).toNat with
    | 0 => if reason = 0 then some .ready else none
    | 1 => if reason = 0 then some .running else none
    | 2 => if reason = 0 then some (.suspended .needsInput) else none
    | 3 => if reason = 0 then some (.suspended .producedOutput) else none
    | 4 => if reason = 0 then some .halted else none
    | 5 => (reasonOfCode reason).map .failed
    | _ => none

end Sys2Proof.Machine
end

