-- ==== Sys2Proof/Machine/Operands.lean ====
section
/-! DEFINITION. Operand resolution (40_decode_and_step.md R83 to R85): every operand form of 30_encoding.md R66. -/

namespace Sys2Proof.Machine

/-- `ParamWord(i)`: the raw parameter word `i` of the instruction at `ip` (R83). -/
def paramWord (s : State) (i : Nat) : Except FailReason Int := memRead s ((s.ip + i : Nat) : Int)

/-- `ResolveRead(i, m)`: the operand of read parameter `i` with mode `m` (R84). -/
def resolveRead (s : State) (i : Nat) (m : Mode) : Except FailReason Int := do
  let p ← paramWord s i
  match m with
  | .position => memRead s p
  | .immediate => .ok p
  | .illegal _ => .error .invalidMode

/-- `ResolveWrite(i, m)`: the target address of write parameter `i` with mode `m` (R85). Its sign is checked here, and a
finite `MEM_LIMIT` only by the write itself. -/
def resolveWrite (s : State) (i : Nat) (m : Mode) : Except FailReason Int := do
  let p ← paramWord s i
  match m with
  | .position => if p < 0 then .error .invalidAddress else .ok p
  | .immediate => .error .immediateWrite
  | .illegal _ => .error .invalidMode

end Sys2Proof.Machine
end

