-- ==== Sys2Proof/Machine/Arithmetic.lean ====
section
/-! DEFINITION. ADD, MUL, LT and EQ (41_arithmetic.md R100 to R105), format F3RRW. -/

namespace Sys2Proof.Machine

/-- The shared shape of the family (R100 to R103): resolve the two operands and the target in index order
(40_decode_and_step.md R88), compute, write, advance by 4. -/
def threeCell (f : Int → Int → Except FailReason Int) (m1 m2 m3 : Mode) (s : State) : Except FailReason State := do
  let op1 ← resolveRead s 1 m1
  let op2 ← resolveRead s 2 m2
  let out ← resolveWrite s 3 m3
  let v ← f op1 op2
  let t ← memWrite s out v
  .ok (advance 4 t)

/-- ADD (R100): the exact sum, subject to a finite word range (R104). -/
def execAdd (m1 m2 m3 : Mode) (s : State) : Host.Outcome State Fault Refusal :=
  runHandler s (threeCell (fun a b => narrow s.cfg (a + b)) m1 m2 m3 s)

/-- MUL (R101): the exact product, subject to a finite word range (R104). -/
def execMul (m1 m2 m3 : Mode) (s : State) : Host.Outcome State Fault Refusal :=
  runHandler s (threeCell (fun a b => narrow s.cfg (a * b)) m1 m2 m3 s)

/-- LT (R102): 1 or 0 by the signed order of the integers. -/
def execLt (m1 m2 m3 : Mode) (s : State) : Host.Outcome State Fault Refusal :=
  runHandler s (threeCell (fun a b => .ok (truth (decide (a < b)))) m1 m2 m3 s)

/-- EQ (R103): 1 or 0 by exact integer equality. -/
def execEq (m1 m2 m3 : Mode) (s : State) : Host.Outcome State Fault Refusal :=
  runHandler s (threeCell (fun a b => .ok (truth (decide (a = b)))) m1 m2 m3 s)

end Sys2Proof.Machine
end

