-- ==== Sys2Proof/Machine/Control.lean ====
section
/-! DEFINITION. JT, JF and HLT (43_control.md R120 to R123). -/

namespace Sys2Proof.Machine

/-- The shared shape of the conditional jumps (R120, R121): both operands are resolved whether or not the jump is taken
(R88); a taken jump to a negative target fails; a jump not taken advances by 3. -/
def condJump (taken : Int → Bool) (m1 m2 : Mode) (s : State) : Except FailReason State := do
  let op1 ← resolveRead s 1 m1
  let op2 ← resolveRead s 2 m2
  if taken op1 then
    if op2 < 0 then .error .invalidAddress else .ok (setIp op2.toNat s)
  else .ok (advance 3 s)

/-- JT (R120): taken when the condition is not 0. -/
def execJt (m1 m2 : Mode) (s : State) : Host.Outcome State Fault Refusal :=
  runHandler s (condJump (fun c => decide (c ≠ 0)) m1 m2 s)

/-- JF (R121): taken when the condition is exactly 0. -/
def execJf (m1 m2 : Mode) (s : State) : Host.Outcome State Fault Refusal :=
  runHandler s (condJump (fun c => decide (c = 0)) m1 m2 s)

/-- HLT (R122): the status becomes `Halted`; the pointer keeps addressing the halt. -/
def execHlt (s : State) : Host.Outcome State Fault Refusal := runHandler s (.ok (halt s))

end Sys2Proof.Machine
end

