-- ==== Sys2Proof/Machine/InOut.lean ====
section
/-! DEFINITION. IN and OUT (42_io.md R110 to R114), the block's only suspension points. -/

namespace Sys2Proof.Machine

/-- The handler of IN (R110): the write parameter is resolved before the queue is tested; an empty queue suspends with
nothing else changed; otherwise the head is written, removed, and the pointer advances by 2. -/
def inputCell (m1 : Mode) (s : State) : Except FailReason State := do
  let out ← resolveWrite s 1 m1
  match s.inq with
  | [] => .ok (suspend .needsInput s)
  | v :: _ => do
    let t ← memWrite s out v
    .ok (advance 2 (popInput t))

/-- The handler of OUT (R111): the operand goes to the last-output register, the pointer advances, the instance suspends. -/
def outputCell (m1 : Mode) (s : State) : Except FailReason State := do
  let op1 ← resolveRead s 1 m1
  .ok (suspend .producedOutput (advance 2 (setOut op1 s)))

/-- IN (R110). -/
def execIn (m1 : Mode) (s : State) : Host.Outcome State Fault Refusal := runHandler s (inputCell m1 s)

/-- OUT (R111). -/
def execOut (m1 : Mode) (s : State) : Host.Outcome State Fault Refusal := runHandler s (outputCell m1 s)

end Sys2Proof.Machine
end

