-- ==== Sys2Proof/Machine/Executor.lean ====
section
/-! DEFINITION. The executor: fetch, decode and dispatch (40_decode_and_step.md R86), and entering `Running` (R91). -/

namespace Sys2Proof.Machine

/-- Fetch the word at the pointer and decode it (R86). The result is the decode latch of 10_state.md R32: it lives inside
one step. -/
def fetchDecode (s : State) : Except FailReason Instr := do
  let w ← memRead s (s.ip : Int)
  decodeInstr s.cfg w

/-- `Step()` (R86), for a state whose status is `Running`. -/
def instructionStep (s : State) : Host.Outcome State Fault Refusal :=
  match fetchDecode s with
  | .ok i => exec i s
  | .error r => .next (raiseFail r s)

/-- One instruction under a host that calls `run_until_suspend` whenever the instance is not inside a call
(notes/assumptions/8.md). A Halted or Failed instance executes nothing; from Ready or either Suspended value the call writes
`Running`, and the instruction at the pointer runs (R90, R91). -/
def driveStep (s : State) : Host.Outcome State Fault Refusal :=
  if s.status.terminal then .next s else instructionStep (enterRunning s)

/-- The word a decode of the table's bits stores (notes/assumptions/13.md), and 0 in the three cells after it. A terminal
status becomes Ready, since a terminal instance executes nothing. -/
def placeWord (w : Nat) (s : State) : State :=
  let t := putCell (s.ip + 3) 0 (putCell (s.ip + 2) 0 (putCell (s.ip + 1) 0 (putCell s.ip (w : Int) s)))
  if s.status.terminal then { t with status := .ready } else t

end Sys2Proof.Machine
end

