-- ==== Sys2Proof/Machine/Step.lean ====
section
/-! DEFINITION. The step the host runs, and the placing of an instruction where the next step fetches. -/

namespace Sys2Proof.Machine

/-- One step: one instruction (70_reset_and_hazards.md R188). -/
def step (s : State) : Host.Outcome State Fault Refusal := driveStep s

/-- The state with the instruction word whose bits are `w` at the pointer and parameter words 0 after it. The count of bits
plays no part: a cell holds the whole number. -/
def State.withFetchWord (s : State) (_nbits w : Nat) : State := placeWord w s

end Sys2Proof.Machine
end

