-- ==== Sys2Proof/Machine/Assembly.lean ====
section
/-! DEFINITION. The spec's own assembly notation (30_encoding.md R72) as structured lines, its assembler, its two
pseudo-instructions, and the disassembler (R73). The words are normative and the notation only describes them. -/

namespace Sys2Proof.Machine

/-- The value of an operand: an integer, or the address a label names (R72). -/
inductive AsmValue where
  /-- An integer. -/
  | lit (v : Int)
  /-- A label. -/
  | label (name : String)
deriving DecidableEq, Repr

/-- One operand: its mode digit's form and its value. A plain value is position mode and `#` is immediate mode (R72). -/
structure AsmOperand where
  /-- The operand form. -/
  mode : Mode
  /-- The parameter word. -/
  value : AsmValue
deriving DecidableEq, Repr

/-- The nine mnemonics of R67. -/
inductive Mnemonic where
  | ADD | MUL | IN | OUT | JT | JF | LT | EQ | HLT
deriving DecidableEq, Repr

/-- One line of a listing (R72). -/
inductive AsmLine where
  /-- `MNEMONIC op, op, op`. -/
  | ins (m : Mnemonic) (ops : List AsmOperand)
  /-- `.word v1, v2, ...`. -/
  | word (vs : List AsmValue)
  /-- `label:`, the address of the next cell. -/
  | label (name : String)
  /-- The pseudo-instruction `JMP #t`. -/
  | jmp (t : AsmValue)
  /-- The pseudo-instruction `MOV a, c`. -/
  | mov (a c : AsmValue)
deriving DecidableEq, Repr

/-- The instruction a mnemonic makes with its operands' modes; `none` for a wrong number of operands, on which R72 is silent
(DESIGN CHOICE, notes/assumptions/21.md). -/
def Mnemonic.toInstr (m : Mnemonic) (modes : List Mode) : Option Instr :=
  match m, modes with
  | .ADD, [m1, m2, m3] => some (.add m1 m2 m3)
  | .MUL, [m1, m2, m3] => some (.mul m1 m2 m3)
  | .IN, [m1] => some (.inp m1)
  | .OUT, [m1] => some (.outp m1)
  | .JT, [m1, m2] => some (.jt m1 m2)
  | .JF, [m1, m2] => some (.jf m1 m2)
  | .LT, [m1, m2, m3] => some (.lt m1 m2 m3)
  | .EQ, [m1, m2, m3] => some (.eq m1 m2 m3)
  | .HLT, [] => some .hlt
  | _, _ => none

/-- The mnemonic of an instruction (R67). -/
def mnemonicOf : Instr → Mnemonic
  | .add _ _ _ => .ADD
  | .mul _ _ _ => .MUL
  | .inp _ => .IN
  | .outp _ => .OUT
  | .jt _ _ => .JT
  | .jf _ _ => .JF
  | .lt _ _ _ => .LT
  | .eq _ _ _ => .EQ
  | .hlt => .HLT

/-- The expansion of the two pseudo-instructions (R72); any other line stands for itself. -/
def AsmLine.expand : AsmLine → AsmLine
  | .jmp t => .ins .JT [⟨.immediate, .lit 1⟩, ⟨.immediate, t⟩]
  | .mov a c => .ins .ADD [⟨.position, a⟩, ⟨.immediate, .lit 0⟩, ⟨.position, c⟩]
  | l => l

/-- The number of cells a line occupies. -/
def AsmLine.size (l : AsmLine) : Nat :=
  match l.expand with
  | .ins _ ops => ops.length + 1
  | .word vs => vs.length
  | _ => 0

/-- The address of each label, for a listing placed at `base` (R72). -/
def labelTable : Nat → List AsmLine → List (String × Nat)
  | _, [] => []
  | base, l :: ls =>
    match l with
    | .label name => (name, base) :: labelTable base ls
    | l => labelTable (base + l.size) ls

/-- The value of an operand under a label table; `none` for a label the listing does not place. R72 is silent on a label placed
twice and on one never placed: the first placement counts, and a listing with an unplaced label has no words (DESIGN CHOICE,
notes/assumptions/21.md). -/
def AsmValue.eval (table : List (String × Nat)) : AsmValue → Option Int
  | .lit v => some v
  | .label name => (table.lookup name).map (fun a => (a : Int))

/-- The values of a list of results, `none` if one of them is. -/
def allSome {α : Type} : List (Option α) → Option (List α)
  | [] => some []
  | o :: os => o.bind (fun x => (allSome os).map (fun xs => x :: xs))

/-- The cells of one line: the canonical instruction word and its parameter words (R71, R72). -/
def AsmLine.cells (table : List (String × Nat)) (l : AsmLine) : Option (List Int) :=
  match l.expand with
  | .ins m ops =>
    (m.toInstr (ops.map AsmOperand.mode)).bind (fun i =>
      (allSome (ops.map (fun o : AsmOperand => o.value.eval table))).map (fun ps => encode i :: ps))
  | .word vs => allSome (vs.map (fun v : AsmValue => v.eval table))
  | _ => some []

/-- The words of a listing placed at address 0. -/
def assemble (ls : List AsmLine) : Option (List Int) :=
  (allSome (ls.map (fun l : AsmLine => l.cells (labelTable 0 ls)))).map List.flatten

/-- The value of a cell for a listing: 0 outside the domain, whatever `UNSET_READ` is (DESIGN CHOICE, notes/assumptions/20.md). -/
def cellOrZero (m : Memory) (a : Nat) : Int := (m.lookup a).getD 0

/-- The line at one address (R73): the decoded instruction with its parameter words, or `.word w` for a word the dispatch
table does not know. R73 decodes by R61, which speaks of words not below zero only, and takes no instance's parameters: the decoder
runs under the values of R6, so a word below zero is always a `.word` (DESIGN CHOICE, notes/assumptions/20.md). -/
def disassembleLine (m : Memory) (a : Nat) : AsmLine :=
  match decodeInstr Params.spec (cellOrZero m a) with
  | .ok i =>
    .ins (mnemonicOf i)
      (i.modes.zipIdx.map (fun p => ⟨p.1, .lit (cellOrZero m (a + 1 + p.2))⟩))
  | .error _ => .word [.lit (cellOrZero m a)]

/-- The number of cells the line at one address stands for: the width (R67), or 1 for a `.word`. -/
def disassembleWidth (m : Memory) (a : Nat) : Nat :=
  match decodeInstr Params.spec (cellOrZero m a) with
  | .ok i => i.width
  | .error _ => 1

/-- `count` lines from an address on (R73). -/
def disassemble (m : Memory) : Nat → Nat → List (Nat × AsmLine)
  | 0, _ => []
  | count + 1, a => (a, disassembleLine m a) :: disassemble m count (a + disassembleWidth m a)

/-- The text of a mnemonic (R67). -/
def Mnemonic.text : Mnemonic → String
  | .ADD => "ADD"
  | .MUL => "MUL"
  | .IN => "IN"
  | .OUT => "OUT"
  | .JT => "JT"
  | .JF => "JF"
  | .LT => "LT"
  | .EQ => "EQ"
  | .HLT => "HLT"

/-- The text of a value. -/
def AsmValue.text : AsmValue → String
  | .lit v => toString v
  | .label name => name

/-- The text of an operand: `#` for mode 1, a plain value otherwise (R72, R73; notes/assumptions/14.md). -/
def AsmOperand.text (o : AsmOperand) : String :=
  match o.mode with
  | .immediate => "#" ++ o.value.text
  | _ => o.value.text

/-- The text of a line (R72). -/
def AsmLine.text : AsmLine → String
  | .ins m [] => m.text
  | .ins m ops => m.text ++ " " ++ String.intercalate ", " (ops.map AsmOperand.text)
  | .word vs => ".word " ++ String.intercalate ", " (vs.map AsmValue.text)
  | .label name => name ++ ":"
  | .jmp t => "JMP #" ++ t.text
  | .mov a c => "MOV " ++ a.text ++ ", " ++ c.text

end Sys2Proof.Machine
end

