-- ==== Sys2Proof/Machine/HostOps.lean ====
section
/-! DEFINITION. The block's six host operations (44_host_interface.md R130 to R137), each one transaction on one instance. -/

namespace Sys2Proof.Machine

/-- What a host operation reports to its caller instead of a result; the instance's state does not change (R135). -/
inductive HostError where
  /-- `read_memory` of a negative address, or of one at or above a finite `MEM_LIMIT` (R135). -/
  | invalidAddress
  /-- `read_memory` of a cell outside the domain under `UNSET_READ = fault` (R135). -/
  | unsetAddress
  /-- `push_input` to a queue that holds a finite `QUEUE_DEPTH` of values: the spec gives no behaviour (92 D18), so the push is
  refused. Safe: the model goes no further (notes/assumptions/6.md). -/
  | queueFull
deriving DecidableEq, Repr

/-- `new_instance(program)` under given parameters (R131): the reset state of 10_state.md R33 with that image. -/
def newInstance (c : Params) (program : List Int) : State :=
  { State.reset with mem := Memory.image 0 program, cfg := c }

/-- `load_program(vm, program)` (R132): every field takes its reset value and the memory is replaced whole. -/
def loadProgram (s : State) (program : List Int) : State := newInstance s.cfg program

/-- Whether the queue holds as many values as a finite `QUEUE_DEPTH` allows. -/
def queueIsFull (s : State) : Bool :=
  match s.cfg.queueDepth with
  | none => false
  | some d => decide (d ≤ s.inq.length)

/-- `push_input(vm, v)` (R133): accepted in every status; only the queue changes. -/
def pushInput (s : State) (v : Int) : Except HostError State :=
  if queueIsFull s then .error .queueFull else .ok { s with inq := s.inq ++ [v] }

/-- The loop of `RunUntilSuspend()` (R91) under fuel: `none` when the fuel runs out before the call returns, which is never
a result (R93). The status is read before each step, so a state that is not Running is returned with no step. -/
def runLoop : Nat → State → Option State
  | fuel, s =>
    if s.status = .running then
      match fuel with
      | 0 => none
      | n + 1 =>
        match instructionStep s with
        | .next t => runLoop n t
        | .fault _ => none
        | .refused _ => none
    else some s

/-- `run_until_suspend(vm)` (R91, R134): the state the call returns in, whose status is the value returned and whose `out` is
the value an output produced (R92). -/
def runUntilSuspend (fuel : Nat) (s : State) : Option State :=
  if s.status.terminal then some s else runLoop fuel (enterRunning s)

/-- `read_memory(vm, a)` (R135): one cell with the lookup of `MemRead`, and no state changed, not even on an error. -/
def readMemory (s : State) (a : Int) : Except HostError Int :=
  if a < 0 then .error .invalidAddress
  else if beyondLimit s.cfg a then .error .invalidAddress
  else
    match s.mem.lookup a.toNat with
    | some v => .ok v
    | none =>
      match s.cfg.unsetRead with
      | .zero => .ok 0
      | .fault => .error .unsetAddress

/-- `last_output(vm)` (R136). -/
def lastOutput (s : State) : Option Int := s.out

/-- One host operation that can change an instance. -/
inductive HostOp where
  /-- `load_program`. -/
  | load (program : List Int)
  /-- `push_input`. -/
  | push (v : Int)
  /-- `run_until_suspend`, under fuel. -/
  | run (fuel : Nat)
deriving DecidableEq, Repr

/-- The state one host operation leaves: a refused push and a call that has not returned leave none. -/
def applyHostOp (s : State) : HostOp → Option State
  | .load program => some (loadProgram s program)
  | .push v => (pushInput s v).toOption
  | .run fuel => runUntilSuspend fuel s

/-- A sequence of host operations on one instance. -/
def applyHostOps (s : State) : List HostOp → Option State
  | [] => some s
  | op :: ops => (applyHostOp s op).bind (fun t => applyHostOps t ops)

/-- Whether an instance's run has ended (R147): `Halted` or `Failed`. A suspended instance has not ended. -/
def runEnded (s : State) : Bool := s.status.terminal

end Sys2Proof.Machine
end

