-- ==== Sys2Proof/Machine/Loader.lean ====
section
/-! DEFINITION. Host software: the program-text loader (44_host_interface.md R138) and the harness (R139). It is outside the
block (00_scope.md R5) and given as rules because the source's testable properties go through it. -/

namespace Sys2Proof.Machine

/-- Remove leading white space. Which characters are white space the spec does not say: those of `Char.isWhitespace`, space,
tab, line feed and carriage return (DESIGN CHOICE, notes/assumptions/9.md). -/
def trimLeft (t : List Char) : List Char := t.dropWhile Char.isWhitespace

/-- Remove leading and trailing white space (R138). -/
def trim (t : List Char) : List Char := (trimLeft (trimLeft t).reverse).reverse

/-- Split at every comma: a text with `n` commas has `n + 1` items, some perhaps empty. -/
def splitCommas : List Char → List (List Char)
  | [] => [[]]
  | c :: cs =>
    if c = ',' then [] :: splitCommas cs
    else
      match splitCommas cs with
      | [] => [[c]]
      | item :: items => (c :: item) :: items

/-- The value of one decimal digit character, `none` for any other character. -/
def digitValue (c : Char) : Option Nat :=
  if '0'.toNat ≤ c.toNat ∧ c.toNat ≤ '9'.toNat then some (c.toNat - '0'.toNat) else none

/-- The value of a run of decimal digits read after the value `acc`. -/
def digitsFrom : Nat → List Char → Option Nat
  | acc, [] => some acc
  | acc, c :: cs => (digitValue c).bind (fun d => digitsFrom (10 * acc + d) cs)

/-- The value of a nonempty run of decimal digits: the pattern `[0-9]+` (R138). -/
def parseDigits : List Char → Option Nat
  | [] => none
  | c :: cs => digitsFrom 0 (c :: cs)

/-- The value of an item that matches `[+-]?[0-9]+`, `none` for one that does not (R138). -/
def parseItem : List Char → Option Int
  | '-' :: cs => (parseDigits cs).map (fun n => -(n : Int))
  | '+' :: cs => (parseDigits cs).map (fun n => (n : Int))
  | cs => (parseDigits cs).map (fun n => (n : Int))

/-- The items' values, `none` if one of them is malformed. -/
def parseItems : List (List Char) → Option (List Int)
  | [] => some []
  | x :: xs => (parseItem (trim x)).bind (fun v => (parseItems xs).map (fun vs => v :: vs))

/-- `parse_program(text)` (R138): `none` is MalformedProgramText, reported before any instance exists. -/
def parseProgram (text : List Char) : Option (List Int) := parseItems (splitCommas (trim text))

/-- The text of a program, as a string. -/
def parseProgramText (text : String) : Option (List Int) := parseProgram text.toList

/-- The harness's patch (R139, 92 D25): elements 1 and 2 of the parsed list replaced before the instance is made. The spec does
not say what replacing an element that a shorter list lacks does: it is left out here, and its value is lost (DESIGN CHOICE,
notes/assumptions/19.md). -/
def patchNounVerb (noun verb : Int) (program : List Int) : List Int := (program.set 1 noun).set 2 verb

/-- How a run to completion under the harness ended. -/
inductive HarnessEnd where
  /-- The instance halted in this state. -/
  | halted (s : State)
  /-- The instance failed, with its reason (R139). -/
  | failed (r : FailReason)
  /-- The run starved: an input suspension, which the harness reports as failed (R139, D29). -/
  | starved
  /-- Fuel ran out: not a result (R93). -/
  | notYet
deriving DecidableEq, Repr

/-- Run to completion (R139): call `run_until_suspend` until it returns `Halted` or `Failed`, resuming an output suspension at
once. `calls` bounds the calls and `fuel` the steps of each. -/
def runToEnd : Nat → Nat → State → HarnessEnd
  | 0, _, _ => .notYet
  | calls + 1, fuel, s =>
    match runUntilSuspend fuel s with
    | none => .notYet
    | some t =>
      match t.status with
      | .halted => .halted t
      | .failed r => .failed r
      | .suspended .needsInput => .starved
      | .suspended .producedOutput => runToEnd calls fuel t
      | .ready => .notYet
      | .running => .notYet

/-- What the harness reports: `read_memory(vm, 0)` of a halted instance, or why there is none (R139). -/
inductive HarnessReport where
  /-- The value of cell 0, or the host error its read gives. -/
  | value (v : Except HostError Int)
  /-- The program text does not parse; no instance was made (R138). -/
  | malformed
  /-- The run failed with this reason. -/
  | failed (r : FailReason)
  /-- The run starved. -/
  | starved
  /-- Fuel ran out. -/
  | notYet

/-- The harness (R139): parse, patch where a noun and a verb are given, run to completion, report cell 0. -/
def harness (c : Params) (calls fuel : Nat) (patch : Option (Int × Int)) (text : List Char) : HarnessReport :=
  match parseProgram text with
  | none => .malformed
  | some program =>
    let image :=
      match patch with
      | none => program
      | some (noun, verb) => patchNounVerb noun verb program
    match runToEnd calls fuel (newInstance c image) with
    | .halted t => .value (readMemory t 0)
    | .failed r => .failed r
    | .starved => .starved
    | .notYet => .notYet

end Sys2Proof.Machine
end

