-- ==== Sys2Proof/Machine/Scheduler.lean ====
section
/-! DEFINITION. Host software: the Pipeline Scheduler (44_host_interface.md R141 to R144) and the Search Driver (R145). It is
outside the block (00_scope.md R5). Every loop runs under fuel, and fuel that runs out is never a result (R93). -/

namespace Sys2Proof.Machine

/-- The result of one pipeline run. -/
inductive PipelineResult where
  /-- The final signal. -/
  | signal (v : Int)
  /-- The candidate failed; it has no numeric result (R144). -/
  | failed
  /-- Fuel ran out: not a result. -/
  | notYet
deriving DecidableEq, Repr

/-- Push several values in order; `none` if one push is refused. -/
def pushAll : List Int → State → Option State
  | [], s => some s
  | v :: vs, s => ((pushInput s v).toOption).bind (pushAll vs)

/-- One instance of a pipeline (R141): a copy of the program with the phase setting queued, and after it the initial signal
0 for instance 0. -/
def buildStage (c : Params) (program : List Int) (first : Bool) (phase : Int) : Option State :=
  pushAll (if first then [phase, 0] else [phase]) (newInstance c program)

/-- The instances of a pipeline, for its phase settings in order (R141). `first` says that the head is instance 0. -/
def buildFrom (c : Params) (program : List Int) : Bool → List Int → Option (List State)
  | _, [] => some []
  | first, ph :: phs =>
    (buildStage c program first ph).bind (fun s => (buildFrom c program false phs).map (fun vms => s :: vms))

/-- The pipeline of R141. -/
def buildPipeline (c : Params) (program phases : List Int) : Option (List State) := buildFrom c program true phases

/-- One stage of the non-feedback mode run to completion (R142): its last output after `Halted`. A failure, a starved input or
a halt with no output makes the candidate failed (R144, D29). -/
def runStage : Nat → Nat → State → PipelineResult
  | 0, _, _ => .notYet
  | calls + 1, fuel, s =>
    match runUntilSuspend fuel s with
    | none => .notYet
    | some t =>
      match t.status with
      | .suspended .producedOutput => runStage calls fuel t
      | .halted =>
        match lastOutput t with
        | some v => .signal v
        | none => .failed
      | .failed _ => .failed
      | .suspended .needsInput => .failed
      | .ready => .notYet
      | .running => .notYet

/-- The stages in order, each given the signal of the one before it (R142). With no stage left the signal carried is the
result; a pipeline of no stages has none and is failed (DESIGN CHOICE, notes/assumptions/10.md). -/
def runStages (calls fuel : Nat) : Option Int → List State → PipelineResult
  | carried, [] =>
    match carried with
    | some v => .signal v
    | none => .failed
  | carried, s :: rest =>
    match pushAll carried.toList s with
    | none => .failed
    | some t =>
      match runStage calls fuel t with
      | .signal v => runStages calls fuel (some v) rest
      | .failed => .failed
      | .notYet => .notYet

/-- Non-feedback mode (R142). -/
def nonFeedback (c : Params) (calls fuel : Nat) (program phases : List Int) : PipelineResult :=
  match buildPipeline c program phases with
  | none => .failed
  | some vms => runStages calls fuel none vms

/-- The feedback ring between turns (R143). `halted[k]` is the status of instance `k`: a fresh instance is Ready, and only its
own call makes it Halted. -/
structure FeedbackRing where
  /-- The instances, by index. -/
  vms : List State
  /-- The instance whose turn it is. -/
  turn : Nat
  /-- The last value instance N-1 produced. -/
  result : Option Int
deriving DecidableEq, Repr

/-- What one turn of the ring leads to. -/
inductive TurnEnd where
  /-- The ring goes on. -/
  | go (r : FeedbackRing)
  /-- The run has ended. -/
  | done (res : PipelineResult)
deriving DecidableEq, Repr

/-- The next turn (R143): `k <- (k+1) mod N`, after every call and for a skipped instance. -/
def FeedbackRing.advanceTurn (r : FeedbackRing) : FeedbackRing := { r with turn := (r.turn + 1) % r.vms.length }

/-- The produced value goes to the tail of the next instance's queue, and is the result so far where the producer is instance
N-1 (R143). A refused push makes the candidate failed (notes/assumptions/6.md). -/
def FeedbackRing.handOff (r : FeedbackRing) (v : Int) : TurnEnd :=
  let next := (r.turn + 1) % r.vms.length
  match r.vms[next]? with
  | none => .done .failed
  | some s =>
    match pushInput s v with
    | .error _ => .done .failed
    | .ok t =>
      let kept := if r.turn + 1 = r.vms.length then some v else r.result
      .go (FeedbackRing.advanceTurn { r with vms := r.vms.set next t, result := kept })

/-- One turn of the ring (R143). -/
def FeedbackRing.step (fuel : Nat) (r : FeedbackRing) : TurnEnd :=
  match r.vms[r.turn]? with
  | none => .done .failed
  | some s =>
    if s.status = .halted then .go r.advanceTurn
    else
      match runUntilSuspend fuel s with
      | none => .done .notYet
      | some t =>
        let r' : FeedbackRing := { r with vms := r.vms.set r.turn t }
        match t.status with
        | .suspended .producedOutput =>
          match lastOutput t with
          | some v => r'.handOff v
          | none => .done .failed
        | .suspended .needsInput => .go r'.advanceTurn
        | .halted =>
          if r.turn + 1 = r.vms.length then
            match r.result with
            | some v => .done (.signal v)
            | none => .done .failed
          else .go r'.advanceTurn
        | .failed _ => .done .failed
        | .ready => .done .notYet
        | .running => .done .notYet

/-- The ring's loop (R143) for at most `turns` turns. A ring whose every live instance waits runs out of fuel (93 U6). -/
def FeedbackRing.run : Nat → Nat → FeedbackRing → PipelineResult
  | 0, _, _ => .notYet
  | turns + 1, fuel, r =>
    match r.step fuel with
    | .go r' => FeedbackRing.run turns fuel r'
    | .done res => res

/-- Feedback mode (R143). -/
def feedback (c : Params) (turns fuel : Nat) (program phases : List Int) : PipelineResult :=
  match buildPipeline c program phases with
  | none => .failed
  | some vms => FeedbackRing.run turns fuel { vms := vms, turn := 0, result := none }

/-- Each element of a list with the rest of the list, in order. -/
def picks : List Int → List (Int × List Int)
  | [] => []
  | x :: xs => (x, xs) :: (picks xs).map (fun p => (p.1, x :: p.2))

/-- The arrangements of `n` elements of a list, in lexicographic order of their positions. -/
def arrangements : Nat → List Int → List (List Int)
  | 0, _ => [[]]
  | n + 1, l => (picks l).flatMap (fun p => (arrangements n p.2).map (fun q => p.1 :: q))

/-- All permutations in lexicographic order, for an ascending list (R145, D30). -/
def permutations (set : List Int) : List (List Int) := arrangements set.length set

/-- The result of a search. -/
inductive SearchResult where
  /-- The maximum signal and the first permutation that achieves it. -/
  | best (v : Int) (order : List Int)
  /-- Every candidate failed (D30). -/
  | none
  /-- Some candidate ran out of fuel: not a result. -/
  | notYet
deriving DecidableEq, Repr

/-- The running best after one more candidate (R145): a strictly greater signal replaces it, a failed candidate is left
out. -/
def SearchResult.consider (acc : SearchResult) (order : List Int) (res : PipelineResult) : SearchResult :=
  match acc, res with
  | .notYet, _ => .notYet
  | _, .notYet => .notYet
  | acc, .failed => acc
  | .none, .signal v => .best v order
  | .best w o, .signal v => if w < v then .best v order else .best w o

/-- The Search Driver (R145) over a pipeline `run`, each candidate with fresh instances. -/
def search (run : List Int → PipelineResult) (set : List Int) : SearchResult :=
  (permutations set).foldl (fun acc order => acc.consider order (run order)) .none

/-- The phase set of the non-feedback mode (R141). -/
def nonFeedbackPhases : List Int := [0, 1, 2, 3, 4]

/-- The phase set of the feedback mode (R141). -/
def feedbackPhases : List Int := [5, 6, 7, 8, 9]

/-- The search over the non-feedback mode (R145). -/
def searchNonFeedback (c : Params) (calls fuel : Nat) (program : List Int) : SearchResult :=
  search (nonFeedback c calls fuel program) nonFeedbackPhases

/-- The search over the feedback mode (R145). -/
def searchFeedback (c : Params) (turns fuel : Nat) (program : List Int) : SearchResult :=
  search (feedback c turns fuel program) feedbackPhases

end Sys2Proof.Machine
end

