-- ==== Sys2Proof/Safety.lean ====
section
/-! DEFINITION. The terms claims are stated in: what a cell holds for a read, what an operand is, where a write parameter
points and which failure a parameter raises, each said as a relation and not as a computation; the invariants; the cells an
instruction reads (20_memory.md R48). -/

namespace Sys2Proof.Machine

/-- Reading address `a` yields `v` (20_memory.md R42): the address is not negative and not at or above a finite `MEM_LIMIT`,
and the cell is in the domain with value `v`, or outside it with `UNSET_READ = zero` and `v` 0. -/
def Holds (s : State) (a v : Int) : Prop :=
  0 ≤ a ∧ (∀ l, s.cfg.memLimit = some l → a < (l : Int)) ∧
    (s.mem.lookup a.toNat = some v ∨ s.mem.lookup a.toNat = none ∧ s.cfg.unsetRead = .zero ∧ v = 0)

/-- Address `a` names no cell (R42, R43): it is negative, or at or above a finite `MEM_LIMIT`. -/
def BadAddress (s : State) (a : Int) : Prop := a < 0 ∨ ∃ l, s.cfg.memLimit = some l ∧ (l : Int) ≤ a

/-- Reading address `a` fails with reason `r` (R42). -/
def CellFails (s : State) (a : Int) (r : FailReason) : Prop :=
  BadAddress s a ∧ r = .invalidAddress ∨
    ¬ BadAddress s a ∧ s.mem.lookup a.toNat = none ∧ s.cfg.unsetRead = .fault ∧ r = .unsetAddress

/-- The operand of read parameter `i` with mode `m` is `v` (40_decode_and_step.md R84). -/
def OperandIs (s : State) (i : Nat) (m : Mode) (v : Int) : Prop :=
  ∃ p, Holds s (s.ip + i) p ∧ (m = .position ∧ Holds s p v ∨ m = .immediate ∧ v = p)

/-- Resolving read parameter `i` with mode `m` fails with reason `r` (R84, in the order of 60_exceptions.md R163). -/
def OperandFails (s : State) (i : Nat) (m : Mode) (r : FailReason) : Prop :=
  CellFails s (s.ip + i) r ∨
    ∃ p, Holds s (s.ip + i) p ∧ (m = .position ∧ CellFails s p r ∨ (∃ d, m = .illegal d) ∧ r = .invalidMode)

/-- Write parameter `i` with mode `m` names address `a` (R85). -/
def TargetIs (s : State) (i : Nat) (m : Mode) (a : Nat) : Prop :=
  m = .position ∧ Holds s (s.ip + i) (a : Int)

/-- Resolving write parameter `i` with mode `m` fails with reason `r` (R85). -/
def TargetFails (s : State) (i : Nat) (m : Mode) (r : FailReason) : Prop :=
  CellFails s (s.ip + i) r ∨
    ∃ p, Holds s (s.ip + i) p ∧
      (m = .position ∧ p < 0 ∧ r = .invalidAddress ∨ m = .immediate ∧ r = .immediateWrite ∨
        (∃ d, m = .illegal d) ∧ r = .invalidMode)

/-- The invariant of every step: the memory is in canonical form. -/
def State.Inv (s : State) : Prop := s.mem.wf

/-- Every value the instance holds is in the word range of its parameters (R40); trivial while `WORD_BITS` is unbounded. -/
def State.WordsFit (s : State) : Prop :=
  (∀ a v, s.mem.lookup a = some v → inWordRange s.cfg v = true) ∧
    (∀ v ∈ s.inq, inWordRange s.cfg v = true) ∧ (∀ v, s.out = some v → inWordRange s.cfg v = true)

/-- A status the host can see `run_until_suspend` return (40_decode_and_step.md R91). -/
def Status.Returned (st : Status) : Prop :=
  (∃ k, st = .suspended k) ∨ st = .halted ∨ ∃ r, st = .failed r

/-- An instance that produces an output at each of its next `k` calls and fails at the call after those (40_decode_and_step.md
R91, 44_host_interface.md R142). -/
def FailsAtCall (fuel : Nat) : Nat → State → Prop
  | 0, s => ∃ t r, runUntilSuspend fuel s = some t ∧ t.status = .failed r
  | k + 1, s => ∃ t, runUntilSuspend fuel s = some t ∧ t.status = .suspended .producedOutput ∧ FailsAtCall fuel k t

/-- The moves of the status in one instruction (40_decode_and_step.md R90), the call that enters `Running` included. -/
def Status.MayBecome (st st' : Status) : Prop :=
  if st.terminal then st' = st else st' = .running ∨ st'.Returned

/-- The read parameters of an instruction, with their index and mode (30_encoding.md R64). -/
def readParams : Instr → List (Nat × Mode)
  | .add m1 m2 _ => [(1, m1), (2, m2)]
  | .mul m1 m2 _ => [(1, m1), (2, m2)]
  | .inp _ => []
  | .outp m1 => [(1, m1)]
  | .jt m1 m2 => [(1, m1), (2, m2)]
  | .jf m1 m2 => [(1, m1), (2, m2)]
  | .lt m1 m2 _ => [(1, m1), (2, m2)]
  | .eq m1 m2 _ => [(1, m1), (2, m2)]
  | .hlt => []

/-- The write parameter of an instruction, with its index and mode (R64). -/
def writeParam : Instr → Option (Nat × Mode)
  | .add _ _ m3 => some (3, m3)
  | .mul _ _ m3 => some (3, m3)
  | .inp m1 => some (1, m1)
  | .outp _ => none
  | .jt _ _ => none
  | .jf _ _ => none
  | .lt _ _ m3 => some (3, m3)
  | .eq _ _ m3 => some (3, m3)
  | .hlt => none

/-- The cells an instruction's execution reads (20_memory.md R48): its own `width` cells, and the cell each position-mode
read parameter names. -/
def ReadsCell (i : Instr) (s : State) (a : Nat) : Prop :=
  (s.ip ≤ a ∧ a < s.ip + i.width) ∨ ∃ k, (k, Mode.position) ∈ readParams i ∧ Holds s (s.ip + k) (a : Int)

/-- The cells an instruction may write (R48): the one its write parameter names. -/
def WritesCell (i : Instr) (s : State) (a : Nat) : Prop :=
  ∃ k m, writeParam i = some (k, m) ∧ TargetIs s k m a

/-- Two instances that differ at most in whether a cell holding 0 is in the domain (20_memory.md R41). -/
def SameCells (s u : State) : Prop :=
  u.ip = s.ip ∧ u.inq = s.inq ∧ u.out = s.out ∧ u.status = s.status ∧ u.cfg = s.cfg ∧
    ∀ a, (u.mem.lookup a).getD 0 = (s.mem.lookup a).getD 0

/-- The words not below zero that the decoder reads as a well-formed instruction `i` while ignored digits are allowed: those
whose residue modulo `used` is the canonical word, so that every other digit is ignored (30_encoding.md R68). -/
def UsedDigitsSelect (i : Instr) (used : Int) : Prop :=
  i.WellFormed → ∀ (c : Params) (w : Int), c.strictModes = false → 0 ≤ w →
    (decodeInstr c w = .ok i ↔ w % used = encode i)

/-- What a rule of the family F3RRW says of an instruction `i` with modes `m1`, `m2`, `m3` and result `f` (41_arithmetic.md R100
to R103), in every state: where both operands and the target resolve and the result is `defined`, the one cell is written and
the pointer advances by 4; otherwise the first failure in the order of 60_exceptions.md R163 is entered. -/
def ThreeCellMeaning (i : Instr) (m1 m2 m3 : Mode) (f : Int → Int → Int) (defined : State → Int → Prop) : Prop :=
  ∀ s : State,
    (∀ a b o, OperandIs s 1 m1 a → OperandIs s 2 m2 b → TargetIs s 3 m3 o → defined s (f a b) →
      (¬ BadAddress s (o : Int) → exec i s = .next { s with mem := s.mem.insert o (f a b), ip := s.ip + 4 }) ∧
      (BadAddress s (o : Int) → exec i s = .next { s with status := .failed .invalidAddress })) ∧
    (∀ r, OperandFails s 1 m1 r → exec i s = .next { s with status := .failed r }) ∧
    (∀ a r, OperandIs s 1 m1 a → OperandFails s 2 m2 r → exec i s = .next { s with status := .failed r }) ∧
    (∀ a b r, OperandIs s 1 m1 a → OperandIs s 2 m2 b → TargetFails s 3 m3 r →
      exec i s = .next { s with status := .failed r })

/-- What a rule of the family F2RR says of a conditional jump `i` taken when `taken` holds of its first operand
(43_control.md R120, R121), in every state. -/
def JumpMeaning (i : Instr) (m1 m2 : Mode) (taken : Int → Prop) : Prop :=
  ∀ s : State,
    (∀ c d, OperandIs s 1 m1 c → OperandIs s 2 m2 d →
      (taken c → 0 ≤ d → exec i s = .next { s with ip := d.toNat }) ∧
      (taken c → d < 0 → exec i s = .next { s with status := .failed .invalidAddress }) ∧
      (¬ taken c → exec i s = .next { s with ip := s.ip + 3 })) ∧
    (∀ r, OperandFails s 1 m1 r → exec i s = .next { s with status := .failed r }) ∧
    (∀ c r, OperandIs s 1 m1 c → OperandFails s 2 m2 r → exec i s = .next { s with status := .failed r })

end Sys2Proof.Machine
end

