-- ==== Sys2Proof/Certificates/Slice0/Obligations.lean ====
section
/-! DEFINITION. The statements for the provers, each a proposition about the model that formalises rules of spec/. -/

open Sys2Proof Sys2Proof.Machine

/-! ### Encoding -/

/-- 30_encoding.md R71: the canonical word, and that decoding it gives back the opcode and the modes, under every treatment of
negative words. -/
def Obligations.CanonicalWordDecodesToItsFields : Prop :=
  (∀ (neg : NegWordDecode) (opc m1 m2 m3 : Nat), opc ≤ 99 → m1 ≤ 9 → m2 ≤ 9 → m3 ≤ 9 →
    decode neg ((opc + 100 * m1 + 1000 * m2 + 10000 * m3 : Nat) : Int) = some ⟨opc, m1, m2, m3⟩) ∧
  (∀ i : Instr, encode i =
    ((i.opcode + 100 * (i.modes[0]?.map Mode.toDigit).getD 0 + 1000 * (i.modes[1]?.map Mode.toDigit).getD 0 +
      10000 * (i.modes[2]?.map Mode.toDigit).getD 0 : Nat) : Int)) ∧
  decode .fault 1101 = some ⟨1, 1, 1, 0⟩ ∧ decode .fault 1002 = some ⟨2, 0, 1, 0⟩

/-- Decode and encode agree for every well-formed instruction, under every choice of the parameters. -/
def Obligations.EveryInstructionRoundTrips : Prop :=
  ∀ (c : Params) (i : Instr), i.WellFormed → decodeInstr c (encode i) = .ok i

/-- 30_encoding.md R69: many words encode one instruction, and the canonical one is the smallest that is not negative. -/
def Obligations.CanonicalWordIsTheSmallest : Prop :=
  (∀ i : Instr, i.WellFormed →
    0 ≤ encode i ∧ decodeInstr Params.spec (encode i) = .ok i ∧
      ∀ w : Int, 0 ≤ w → decodeInstr Params.spec w = .ok i → encode i ≤ w) ∧
  (∀ w ∈ [(99 : Int), 199, 1099, 100099], decodeInstr Params.spec w = .ok .hlt) ∧
  ∀ w ∈ [(1 : Int), 100001], decodeInstr Params.spec w = .ok (.add .position .position .position)

/-- With ignored digits allowed, a word decodes to an instruction exactly when its two opcode digits and the mode digits of the
parameters the instruction has are those of the canonical word. For a word below zero these are the digits of the floored modulus
or of the absolute value, as `NEG_WORD_DECODE` says, and under `fault` there is no instruction (30_encoding.md R63). -/
def Obligations.WordDecodesByItsUsedDigits : Prop :=
  ∀ (c : Params) (i : Instr) (w : Int), c.strictModes = false → i.WellFormed →
    (0 ≤ w → (decodeInstr c w = .ok i ↔ w % 10 ^ (i.width + 1) = encode i)) ∧
    (w < 0 →
      (c.negWord = .fault → decodeInstr c w = .error .invalidOpcode) ∧
      (c.negWord = .floored → (decodeInstr c w = .ok i ↔ w % 10 ^ (i.width + 1) = encode i)) ∧
      (c.negWord = .truncated → (decodeInstr c w = .ok i ↔ -w % 10 ^ (i.width + 1) = encode i)))

/-- With `STRICT_MODES` the canonical word is the only word, of those not negative, that decodes to an instruction. -/
def Obligations.StrictModesAcceptOnlyCanonicalWords : Prop :=
  ∀ (c : Params) (i : Instr) (w : Int), c.strictModes = true → 0 ≤ w →
    (decodeInstr c w = .ok i ↔ i.WellFormed ∧ w = encode i)

/-- Whatever word is decoded, under whatever parameters, the instruction is well formed: each mode of it is one decimal digit. -/
def Obligations.DecodedInstructionsAreWellFormed : Prop :=
  ∀ (c : Params) (w : Int) (i : Instr), decodeInstr c w = .ok i → i.WellFormed

/-- 40_decode_and_step.md R81: the decoder's fields, for words below zero under each of the three treatments, and for all other
words under every treatment. -/
def Obligations.DecoderFieldsOfEveryWord : Prop :=
  ∀ w : Int,
    (w < 0 →
      decode .fault w = none ∧
      decode .floored w = some ⟨(w % 100).toNat, (w / 100 % 10).toNat, (w / 1000 % 10).toNat, (w / 10000 % 10).toNat⟩ ∧
      decode .truncated w =
        some ⟨(-w % 100).toNat, (-w / 100 % 10).toNat, (-w / 1000 % 10).toNat, (-w / 10000 % 10).toNat⟩) ∧
    (0 ≤ w → ∀ neg : NegWordDecode,
      decode neg w = some ⟨(w % 100).toNat, (w / 100 % 10).toNat, (w / 1000 % 10).toNat, (w / 10000 % 10).toNat⟩)

/-- One word of each row of the opcode table, written from its digit pattern, decodes to the instruction it stands for. -/
def Obligations.TableWordsDecode : Prop :=
  decodeTableWord 16 1101 = some (.add .immediate .immediate .position) ∧
  decodeTableWord 16 1002 = some (.mul .position .immediate .position) ∧
  decodeTableWord 8 3 = some (.inp .position) ∧
  decodeTableWord 8 104 = some (.outp .immediate) ∧
  decodeTableWord 16 1105 = some (.jt .immediate .immediate) ∧
  decodeTableWord 16 1006 = some (.jf .position .immediate) ∧
  decodeTableWord 16 107 = some (.lt .immediate .position .position) ∧
  decodeTableWord 16 10008 = some (.eq .position .position .immediate) ∧
  decodeTableWord 8 99 = some .hlt ∧
  decodeTableWord 8 50 = none

/-! ### Memory -/

/-- 20_memory.md R42: what `MemRead` answers, case by case. -/
def Obligations.MemReadAnswersTheCell : Prop :=
  ∀ (s : State) (a : Int),
    (a < 0 → memRead s a = .error .invalidAddress) ∧
    (∀ l : Nat, s.cfg.memLimit = some l → (l : Int) ≤ a → memRead s a = .error .invalidAddress) ∧
    (0 ≤ a → (∀ l : Nat, s.cfg.memLimit = some l → a < (l : Int)) →
      (∀ v, s.mem.lookup a.toNat = some v → memRead s a = .ok v) ∧
      (s.mem.lookup a.toNat = none → s.cfg.unsetRead = .zero → memRead s a = .ok 0) ∧
      (s.mem.lookup a.toNat = none → s.cfg.unsetRead = .fault → memRead s a = .error .unsetAddress))

/-- 20_memory.md R43: `MemWrite` sets one cell, adds it to the domain and changes no other cell and no other field; a bad address
fails. -/
def Obligations.MemWriteSetsOneCell : Prop :=
  ∀ (s : State) (a v : Int),
    (a < 0 → memWrite s a v = .error .invalidAddress) ∧
    (∀ l : Nat, s.cfg.memLimit = some l → (l : Int) ≤ a → memWrite s a v = .error .invalidAddress) ∧
    (0 ≤ a → (∀ l : Nat, s.cfg.memLimit = some l → a < (l : Int)) →
      ∃ t, memWrite s a v = .ok t ∧ t.mem.lookup a.toNat = some v ∧
        (∀ b, b ≠ a.toNat → t.mem.lookup b = s.mem.lookup b) ∧ t = { s with mem := t.mem })

/-- 20_memory.md R41: no step removes an address from the domain, and the only address a step can add is the one the instruction at
the pointer writes. -/
def Obligations.DomainGrowsOnlyByTheWrittenCell : Prop :=
  ∀ s t : State, step s = .next t →
    (∀ a, s.mem.lookup a ≠ none → t.mem.lookup a ≠ none) ∧
    (∀ a, s.mem.lookup a = none → t.mem.lookup a ≠ none → ∃ i, fetchDecode s = .ok i ∧ WritesCell i s a)

/-- Every step keeps the memory in its canonical form and never changes the parameters. -/
def Obligations.StepKeepsTheInvariant : Prop :=
  ∀ s t : State, s.Inv → step s = .next t → t.Inv ∧ t.cfg = s.cfg

/-- The reset state meets the invariant. -/
def Obligations.ResetMeetsTheInvariant : Prop := State.reset.Inv

/-- Every sequence of host operations keeps the invariant and the parameters. -/
def Obligations.HostOperationsKeepTheInvariant : Prop :=
  ∀ (ops : List HostOp) (s t : State), s.Inv → applyHostOps s ops = some t → t.Inv ∧ t.cfg = s.cfg

/-- Every step keeps every value the instance holds in the word range, for an unbounded word and for a finite one that can hold a
comparison's 1. The range of a finite word is the model's reading (notes/assumptions/4.md). -/
def Obligations.StepKeepsTheWordRange : Prop :=
  ∀ s t : State, (∀ n, s.cfg.wordBits = some n → 2 ≤ n) → s.WordsFit → step s = .next t → t.WordsFit

/-! ### Reset -/

/-- 10_state.md R33: every field after reset, for a new instance and for a program loaded over an old one in any state. -/
def Obligations.ResetGivesEveryFieldItsValue : Prop :=
  ∀ (c : Params) (program : List Int) (old t : State),
    (t = newInstance c program ∧ t.cfg = c ∨ t = loadProgram old program ∧ t.cfg = old.cfg) →
      t.ip = 0 ∧ (∀ a, t.mem.lookup a = program[a]?) ∧ t.inq = [] ∧ t.out = none ∧ t.status = .ready ∧
        t.status.toReg = 0x00

/-! ### Instructions -/

/-- 41_arithmetic.md R100: ADD. The exact sum is that of an unbounded word; a finite one is in
`FiniteWordResultsThatFitAreExact` and `OverflowFollowsItsPolicy`. -/
def Obligations.AddMeaning : Prop :=
  ∀ m1 m2 m3 : Mode,
    ThreeCellMeaning (.add m1 m2 m3) m1 m2 m3 (fun a b => a + b) (fun s _ => s.cfg.wordBits = none) ∧
    encode (.add m1 m2 m3) = 1 + 100 * m1.toDigit + 1000 * m2.toDigit + 10000 * m3.toDigit ∧
    UsedDigitsSelect (.add m1 m2 m3) (10 ^ 5)

/-- 41_arithmetic.md R101: MUL. The exact product is that of an unbounded word; a finite one is in
`FiniteWordResultsThatFitAreExact` and `OverflowFollowsItsPolicy`. -/
def Obligations.MulMeaning : Prop :=
  ∀ m1 m2 m3 : Mode,
    ThreeCellMeaning (.mul m1 m2 m3) m1 m2 m3 (fun a b => a * b) (fun s _ => s.cfg.wordBits = none) ∧
    encode (.mul m1 m2 m3) = 2 + 100 * m1.toDigit + 1000 * m2.toDigit + 10000 * m3.toDigit ∧
    UsedDigitsSelect (.mul m1 m2 m3) (10 ^ 5)

/-- 41_arithmetic.md R102: LT. -/
def Obligations.LessThanMeaning : Prop :=
  ∀ m1 m2 m3 : Mode,
    ThreeCellMeaning (.lt m1 m2 m3) m1 m2 m3 (fun a b => if a < b then 1 else 0) (fun _ _ => True) ∧
    encode (.lt m1 m2 m3) = 7 + 100 * m1.toDigit + 1000 * m2.toDigit + 10000 * m3.toDigit ∧
    UsedDigitsSelect (.lt m1 m2 m3) (10 ^ 5)

/-- 41_arithmetic.md R103: EQ. -/
def Obligations.EqualsMeaning : Prop :=
  ∀ m1 m2 m3 : Mode,
    ThreeCellMeaning (.eq m1 m2 m3) m1 m2 m3 (fun a b => if a = b then 1 else 0) (fun _ _ => True) ∧
    encode (.eq m1 m2 m3) = 8 + 100 * m1.toDigit + 1000 * m2.toDigit + 10000 * m3.toDigit ∧
    UsedDigitsSelect (.eq m1 m2 m3) (10 ^ 5)

/-- A sum or product outside a finite word range: `OVERFLOW_POLICY` decides (41_arithmetic.md R104, 60_exceptions.md R160). What
`wrap` stores agrees with the exact result modulo `2 ^ n` and is in the word range; the range is the model's reading
(notes/assumptions/4.md). -/
def Obligations.OverflowFollowsItsPolicy : Prop :=
  ∀ (s : State) (n : Nat) (m1 m2 m3 : Mode) (a b : Int) (o : Nat) (i : Instr) (exact : Int),
    s.cfg.wordBits = some n → OperandIs s 1 m1 a → OperandIs s 2 m2 b → TargetIs s 3 m3 o →
    (i = .add m1 m2 m3 ∧ exact = a + b ∨ i = .mul m1 m2 m3 ∧ exact = a * b) → inWordRange s.cfg exact = false →
    (s.cfg.overflow = .fault → exec i s = .next { s with status := .failed .overflow }) ∧
    (s.cfg.overflow = .wrap → ¬ BadAddress s (o : Int) →
      ∃ v, exec i s = .next { s with mem := s.mem.insert o v, ip := s.ip + 4 } ∧ inWordRange s.cfg v = true ∧
        v % 2 ^ n = exact % 2 ^ n)

/-- A sum or product that fits a finite word is stored exactly (41_arithmetic.md R104: the results are defined when they fit).
Which values fit is the model's reading (notes/assumptions/4.md). -/
def Obligations.FiniteWordResultsThatFitAreExact : Prop :=
  ∀ (s : State) (n : Nat) (m1 m2 m3 : Mode) (a b : Int) (o : Nat) (i : Instr) (exact : Int),
    s.cfg.wordBits = some n → OperandIs s 1 m1 a → OperandIs s 2 m2 b → TargetIs s 3 m3 o →
    (i = .add m1 m2 m3 ∧ exact = a + b ∨ i = .mul m1 m2 m3 ∧ exact = a * b) → inWordRange s.cfg exact = true →
    (¬ BadAddress s (o : Int) → exec i s = .next { s with mem := s.mem.insert o exact, ip := s.ip + 4 }) ∧
    (BadAddress s (o : Int) → exec i s = .next { s with status := .failed .invalidAddress })

/-- 42_io.md R110: IN, its suspension on an empty queue and what the next call does with it. -/
def Obligations.InputMeaning : Prop :=
  ∀ m1 : Mode,
    (∀ (s : State) (o : Nat), TargetIs s 1 m1 o →
      (s.inq = [] → exec (.inp m1) s = .next { s with status := .suspended .needsInput }) ∧
      (∀ v vs, s.inq = v :: vs →
        (¬ BadAddress s (o : Int) →
          exec (.inp m1) s = .next { s with mem := s.mem.insert o v, inq := vs, ip := s.ip + 2 }) ∧
        (BadAddress s (o : Int) → exec (.inp m1) s = .next { s with status := .failed .invalidAddress }))) ∧
    (∀ (s : State) (r : FailReason), TargetFails s 1 m1 r → exec (.inp m1) s = .next { s with status := .failed r }) ∧
    (∀ (s : State) (o fuel : Nat), s.status = .suspended .needsInput → fetchDecode s = .ok (.inp m1) → TargetIs s 1 m1 o →
      (s.inq = [] → runUntilSuspend (fuel + 1) s = some s) ∧
      (∀ v vs, s.inq = v :: vs → ¬ BadAddress s (o : Int) →
        step s = .next { s with mem := s.mem.insert o v, inq := vs, ip := s.ip + 2, status := .running })) ∧
    encode (.inp m1) = 3 + 100 * m1.toDigit ∧ UsedDigitsSelect (.inp m1) (10 ^ 3)

/-- 42_io.md R111: OUT. -/
def Obligations.OutputMeaning : Prop :=
  ∀ (m1 : Mode),
    (∀ (s : State) (v : Int), OperandIs s 1 m1 v →
      exec (.outp m1) s =
        .next { s with out := some v, ip := s.ip + 2, status := .suspended .producedOutput }) ∧
    (∀ (s : State) (r : FailReason), OperandFails s 1 m1 r →
      exec (.outp m1) s = .next { s with status := .failed r }) ∧
    encode (.outp m1) = 4 + 100 * m1.toDigit ∧ UsedDigitsSelect (.outp m1) (10 ^ 3)

/-- 43_control.md R120: JT. -/
def Obligations.JumpIfTrueMeaning : Prop :=
  ∀ m1 m2 : Mode, JumpMeaning (.jt m1 m2) m1 m2 (fun c => c ≠ 0) ∧
    encode (.jt m1 m2) = 5 + 100 * m1.toDigit + 1000 * m2.toDigit ∧ UsedDigitsSelect (.jt m1 m2) (10 ^ 4)

/-- 43_control.md R121: JF. -/
def Obligations.JumpIfFalseMeaning : Prop :=
  ∀ m1 m2 : Mode, JumpMeaning (.jf m1 m2) m1 m2 (fun c => c = 0) ∧
    encode (.jf m1 m2) = 6 + 100 * m1.toDigit + 1000 * m2.toDigit ∧ UsedDigitsSelect (.jf m1 m2) (10 ^ 4)

/-- 43_control.md R122: HLT: only the status changes, every later call returns without executing, and under `STRICT_MODES` a halt
word with a nonzero ignored digit fails. -/
def Obligations.HaltMeaning : Prop :=
  (∀ s : State, exec .hlt s = .next { s with status := .halted }) ∧
  (∀ (s : State) (fuel : Nat), s.status = .halted → runUntilSuspend fuel s = some s) ∧
  encode .hlt = 99 ∧ UsedDigitsSelect .hlt (10 ^ 2) ∧
  ∀ c : Params, c.strictModes = true → decodeInstr c 199 = .error .invalidMode

/-! ### What an instruction leaves unchanged -/

/-- The frame of ADD, MUL, LT and EQ: the queue, the last output and the parameters are unchanged; the status is unchanged or a
failure's; every cell but the target is unchanged. -/
def Obligations.FrameOfArithmeticAndComparison : Prop :=
  ∀ (m1 m2 m3 : Mode) (s t : State) (i : Instr),
    i = .add m1 m2 m3 ∨ i = .mul m1 m2 m3 ∨ i = .lt m1 m2 m3 ∨ i = .eq m1 m2 m3 → exec i s = .next t →
      t.inq = s.inq ∧ t.out = s.out ∧ t.cfg = s.cfg ∧ (t.status = s.status ∨ ∃ r, t.status = .failed r) ∧
      ∀ a : Nat, (∀ o, resolveWrite s 3 m3 = .ok o → (a : Int) ≠ o) → t.mem.lookup a = s.mem.lookup a

/-- The frame of IN: the last output and the parameters are unchanged; the queue is unchanged or has lost its head; the status is
unchanged, the input suspension or a failure's; every cell but the target is unchanged. -/
def Obligations.FrameOfInput : Prop :=
  ∀ (m1 : Mode) (s t : State), exec (.inp m1) s = .next t →
    t.out = s.out ∧ t.cfg = s.cfg ∧ (t.inq = s.inq ∨ t.inq = s.inq.tail) ∧
    (t.status = s.status ∨ t.status = .suspended .needsInput ∨ ∃ r, t.status = .failed r) ∧
    ∀ a : Nat, (∀ o, resolveWrite s 1 m1 = .ok o → (a : Int) ≠ o) → t.mem.lookup a = s.mem.lookup a

/-- The frame of OUT, JT, JF and HLT, which store nothing: every cell, the queue and the parameters are unchanged, and the last
output and the status but for what OUT and HLT do to them. -/
def Obligations.FrameOfOutputJumpsAndHalt : Prop :=
  ∀ (m1 m2 : Mode) (s t : State) (i : Instr),
    i = .outp m1 ∨ i = .jt m1 m2 ∨ i = .jf m1 m2 ∨ i = .hlt → exec i s = .next t →
      (∀ a : Nat, t.mem.lookup a = s.mem.lookup a) ∧ t.mem = s.mem ∧ t.inq = s.inq ∧ t.cfg = s.cfg ∧
      (i ≠ .outp m1 → t.out = s.out) ∧
      (i = .jt m1 m2 ∨ i = .jf m1 m2 → t.status = s.status ∨ ∃ r, t.status = .failed r)

/-- Only OUT changes the last output, to its operand; only IN changes the queue, taking its head into its target cell; no
instruction changes the parameters (10_state.md R29, R30). -/
def Obligations.OutputAndQueueChangeOnlyByTheirInstruction : Prop :=
  ∀ (i : Instr) (s t : State), exec i s = .next t →
    (t.out = s.out ∨ ∃ m v, i = .outp m ∧ OperandIs s 1 m v ∧ t.out = some v) ∧
    (t.inq = s.inq ∨ ∃ m v o, i = .inp m ∧ s.inq = v :: t.inq ∧ TargetIs s 1 m o ∧ t.mem.lookup o = some v) ∧
    t.cfg = s.cfg

/-- Executing an illegal encoding fails the instance in every state, and a legal one never fails for its modes (30_encoding.md
R68). -/
def Obligations.IllegalEncodingsFail : Prop :=
  ∀ (i : Instr) (s : State),
    (¬ i.Legal → ∃ r, exec i s = .next { s with status := .failed r }) ∧
    (i.Legal → s.status = .running → ∀ t, exec i s = .next t →
      t.status ≠ .failed .invalidMode ∧ t.status ≠ .failed .immediateWrite ∧ t.status ≠ .failed .invalidOpcode)

/-- Under `UNSET_READ = zero` no step and no `read_memory` tells a cell outside the domain from a cell that holds 0
(20_memory.md R41). -/
def Obligations.UnsetCellsActAsZero : Prop :=
  ∀ s u : State, s.cfg.unsetRead = .zero → SameCells s u →
    (∀ a, readMemory u a = readMemory s a) ∧
    ∀ t, step s = .next t → ∃ v, step u = .next v ∧ SameCells t v

/-- What an instruction does depends on memory only through the cells it reads: over another memory that agrees on those, it ends
the same way, and each cell ends with the same value over both memories or is left as it was in both. -/
def Obligations.InstructionReadsOnlyItsCells : Prop :=
  ∀ (i : Instr) (s t : State) (m : Memory), (∀ a, ReadsCell i s a → m.lookup a = s.mem.lookup a) →
    exec i s = .next t →
    ∃ u, exec i { s with mem := m } = .next u ∧ u.ip = t.ip ∧ u.inq = t.inq ∧ u.out = t.out ∧ u.status = t.status ∧
      ∀ a, u.mem.lookup a = t.mem.lookup a ∨ u.mem.lookup a = m.lookup a ∧ t.mem.lookup a = s.mem.lookup a

/-- A result written to the next instruction's first cell is the word the next fetch decodes; one written over the instruction's
own cells does not change how it completes (20_memory.md R55, 41_arithmetic.md R105). The premise that the sum fits holds of every
sum while `WORD_BITS` is unbounded; for a finite word the range it names is the model's choice (notes/assumptions/4.md). -/
def Obligations.WrittenCodeIsFetchedNext : Prop :=
  ∀ (m1 m2 m3 : Mode) (s : State) (a b : Int) (o : Nat), OperandIs s 1 m1 a → OperandIs s 2 m2 b → TargetIs s 3 m3 o →
    ¬ BadAddress s (o : Int) → inWordRange s.cfg (a + b) = true →
    ∃ t, exec (.add m1 m2 m3) s = .next t ∧ t.ip = s.ip + 4 ∧
      (o = s.ip + 4 → fetchDecode t = decodeInstr s.cfg (a + b)) ∧
      (s.ip ≤ o → o < s.ip + 4 → t.mem.lookup o = some (a + b))

/-! ### The step -/

/-- Where the cell at the pointer holds a word that decodes, one step of an instance that is not terminal is exec of that
instruction with the status Running (40_decode_and_step.md R86, R91). -/
def Obligations.StepRunsTheDecodedInstruction : Prop :=
  ∀ (s : State) (w : Int) (i : Instr), s.status.terminal = false → Holds s s.ip w → decodeInstr s.cfg w = .ok i →
    step s = exec i { s with status := .running }

/-- A step that cannot dispatch fails: at the fetch, at a negative word, at an opcode outside the nine, at a nonzero ignored digit
under `STRICT_MODES`, in this order (40_decode_and_step.md R86, 60_exceptions.md R163 items 1 to 4). Which digits of a word below
zero count as ignored, in the last clause, is the model's choice (notes/assumptions/5.md). -/
def Obligations.StepFailsBeforeDispatch : Prop :=
  ∀ s : State, s.status.terminal = false →
    (∀ r, CellFails s s.ip r → step s = .next { s with status := .failed r }) ∧
    ∀ w, Holds s s.ip w →
      (w < 0 → s.cfg.negWord = .fault → step s = .next { s with status := .failed .invalidOpcode }) ∧
      ∀ d, decode s.cfg.negWord w = some d →
        (d.opc ∉ [1, 2, 3, 4, 5, 6, 7, 8, 99] → step s = .next { s with status := .failed .invalidOpcode }) ∧
        (d.opc ∈ [1, 2, 3, 4, 5, 6, 7, 8, 99] → s.cfg.strictModes = true →
          (0 ≤ w → (∀ i : Instr, i.WellFormed → w ≠ encode i) →
            step s = .next { s with status := .failed .invalidMode }) ∧
          (w < 0 → (s.cfg.negWord = .truncated → ∀ i : Instr, i.WellFormed → -w ≠ encode i) →
            step s = .next { s with status := .failed .invalidMode }))

/-- Every step answers a next state: the model never stops. -/
def Obligations.StepNeverStops : Prop := ∀ s : State, ∃ t, step s = .next t

/-- 60_exceptions.md R162: a failure raised in a step changes the status and nothing else. -/
def Obligations.FailureChangesOnlyTheStatus : Prop :=
  ∀ (s t : State) (r : FailReason), s.status.terminal = false → step s = .next t → t.status = .failed r →
    t = { s with status := .failed r }

/-- 10_state.md R23: the pointer after each way an instruction can end, and that pushing input leaves it alone. -/
def Obligations.PointerAfterEveryInstruction : Prop :=
  (∀ (i : Instr) (s t : State), s.status = .running → exec i s = .next t →
    (∀ r, t.status = .failed r → t.ip = s.ip) ∧
    ((∀ r, t.status ≠ .failed r) →
      match i with
      | .add _ _ _ => t.ip = s.ip + 4
      | .mul _ _ _ => t.ip = s.ip + 4
      | .lt _ _ _ => t.ip = s.ip + 4
      | .eq _ _ _ => t.ip = s.ip + 4
      | .inp _ =>
        (s.inq ≠ [] → t.ip = s.ip + 2) ∧ (s.inq = [] → t.ip = s.ip ∧ t.status = .suspended .needsInput)
      | .outp _ => t.ip = s.ip + 2 ∧ t.status = .suspended .producedOutput
      | .jt m1 m2 => ∃ c d, OperandIs s 1 m1 c ∧ OperandIs s 2 m2 d ∧
          (c ≠ 0 → (t.ip : Int) = d) ∧ (c = 0 → t.ip = s.ip + 3)
      | .jf m1 m2 => ∃ c d, OperandIs s 1 m1 c ∧ OperandIs s 2 m2 d ∧
          (c = 0 → (t.ip : Int) = d) ∧ (c ≠ 0 → t.ip = s.ip + 3)
      | .hlt => t.ip = s.ip)) ∧
  ∀ (s t : State) (v : Int), pushInput s v = .ok t → t.ip = s.ip

/-- The status moves in a step only as 40_decode_and_step.md R90 allows, and each suspension and the halt come from their own
instruction alone (60_exceptions.md R166). -/
def Obligations.StatusMovesAsTheStateMachineAllows : Prop :=
  ∀ s t : State, step s = .next t →
    s.status.MayBecome t.status ∧
    (s.status.terminal = false →
      (t.status = .suspended .needsInput → ∃ m, fetchDecode s = .ok (.inp m) ∧ s.inq = []) ∧
      (t.status = .suspended .producedOutput → ∃ m, fetchDecode s = .ok (.outp m)) ∧
      (t.status = .halted → fetchDecode s = .ok .hlt))

/-- A halted or failed instance executes nothing, and only reset leaves that status (60_exceptions.md R164). -/
def Obligations.TerminalInstancesExecuteNothing : Prop :=
  ∀ s : State, s.status = .halted ∨ (∃ r, s.status = .failed r) →
    step s = .next s ∧ (∀ fuel, runUntilSuspend fuel s = some s) ∧
    (∀ v t, pushInput s v = .ok t → t.status = s.status) ∧ ∀ program, (loadProgram s program).status = .ready

/-- `run_until_suspend` is repeated stepping: a call that returns has taken some number of steps, every state between the first
and the last is Running, and the status it returns is a suspension, Halted or Failed (40_decode_and_step.md R91). -/
def Obligations.RunIsRepeatedStep : Prop :=
  ∀ (fuel : Nat) (s t : State), s.status.terminal = false → runUntilSuspend fuel s = some t →
    t.status.Returned ∧
    ∃ k, 1 ≤ k ∧ k ≤ fuel ∧ core.run k s = .next t ∧
      ∀ j u, 1 ≤ j → j < k → core.run j s = .next u → u.status = .running

/-- A call that returned under some fuel returns the same under more: running out of fuel is the only thing fuel decides
(40_decode_and_step.md R93). -/
def Obligations.RunResultNeedsNoMoreFuel : Prop :=
  ∀ (fuel more : Nat) (s t : State), runUntilSuspend fuel s = some t → runUntilSuspend (fuel + more) s = some t

/-! ### The host's operations -/

/-- 44_host_interface.md R133: a push appends one value and changes nothing else, in every status; on a terminal instance the value
is never consumed. -/
def Obligations.PushInputAppends : Prop :=
  ∀ (s : State) (v : Int), s.cfg.queueDepth = none →
    pushInput s v = .ok { s with inq := s.inq ++ [v] } ∧
    (s.status.terminal = true → ∀ fuel,
      runUntilSuspend fuel { s with inq := s.inq ++ [v] } = some { s with inq := s.inq ++ [v] })

/-- 44_host_interface.md R135: what `read_memory` returns. -/
def Obligations.ReadMemoryReportsTheCell : Prop :=
  ∀ (s : State) (a : Int),
    (a < 0 → readMemory s a = .error .invalidAddress) ∧
    (∀ l : Nat, s.cfg.memLimit = some l → (l : Int) ≤ a → readMemory s a = .error .invalidAddress) ∧
    (∀ v, Holds s a v → readMemory s a = .ok v) ∧
    (¬ BadAddress s a → s.mem.lookup a.toNat = none → s.cfg.unsetRead = .fault →
      readMemory s a = .error .unsetAddress)

/-- 10_state.md R27: the STATUS register of every status, and the statuses its values stand for. -/
def Obligations.StatusRegisterIsExact : Prop :=
  (∀ st : Status, Status.ofReg st.toReg = some st) ∧
  (∀ (b : BitVec 8) (st : Status), Status.ofReg b = some st → st.toReg = b) ∧
  (∀ st : Status, st.toReg.getLsbD 7 = false ∧ st.toReg.extractLsb' 0 3 = st.kind ∧ st.toReg.extractLsb' 3 4 = st.reason ∧
    (st.reason = 0 ↔ st.kind ≠ 5) ∧ st.kind.toNat ≤ 5 ∧ st.reason.toNat ≤ 6) ∧
  (∀ (c : Params) (program : List Int) (old : State),
    (newInstance c program).status.toReg = 0 ∧ (loadProgram old program).status.toReg = 0) ∧
  (∀ (s t : State) (v : Int), pushInput s v = .ok t → t.status.toReg = s.status.toReg) ∧
  Status.toReg .ready = 0x00 ∧ Status.toReg .running = 0x01 ∧ Status.toReg (.suspended .needsInput) = 0x02 ∧
  Status.toReg (.suspended .producedOutput) = 0x03 ∧ Status.toReg .halted = 0x04 ∧
  Status.toReg (.failed .invalidOpcode) = 0x0D ∧ Status.toReg (.failed .invalidAddress) = 0x15 ∧
  Status.toReg (.failed .invalidMode) = 0x1D ∧ Status.toReg (.failed .immediateWrite) = 0x25 ∧
  Status.toReg (.failed .unsetAddress) = 0x2D ∧ Status.toReg (.failed .overflow) = 0x35

/-! ### Host software -/

/-- A text that parses has one value for each comma-separated item, so no empty item is dropped (44_host_interface.md R138). -/
def Obligations.ParsedProgramHasOneValuePerItem : Prop :=
  ∀ (text : List Char) (program : List Int), parseProgram text = some program →
    program.length = (trim text).count ',' + 1

/-- The harness's patch of the program list gives the memory that writing cells 1 and 2 of the loaded image would give
(44_host_interface.md R139, 92_eei_decisions.md D25). -/
def Obligations.PatchEqualsWritingTheCells : Prop :=
  ∀ (c : Params) (program : List Int) (noun verb : Int), 2 < program.length →
    (newInstance c (patchNounVerb noun verb program)).mem =
      ((newInstance c program).mem.insert 1 noun).insert 2 verb

/-- The enumeration holds exactly the rearrangements of the phase set, and for an ascending set it is in lexicographic order
(44_host_interface.md R145). -/
def Obligations.PermutationsAreAllAndInOrder : Prop :=
  (∀ set l : List Int, l ∈ permutations set ↔ l.Perm set) ∧
  ∀ set : List Int, set.Pairwise (· < ·) → (permutations set).Pairwise (List.Lex (· < ·))

/-- What a search reports is the greatest signal of any permutation, with the FIRST permutation in enumeration order that gives it;
it reports no result exactly when every candidate failed (44_host_interface.md R145). It does report one where no candidate runs
out of fuel and some candidate has a signal; a candidate out of fuel leaves the search without a result, which is the model's choice
(notes/assumptions/18.md). -/
def Obligations.SearchReportsTheFirstMaximum : Prop :=
  ∀ (run : List Int → PipelineResult) (set : List Int),
    (∀ v order, search run set = .best v order →
      run order = .signal v ∧
      (∀ q ∈ permutations set, ∀ w, run q = .signal w → w ≤ v) ∧
      ∃ before after, permutations set = before ++ order :: after ∧
        ∀ q ∈ before, ∀ w, run q = .signal w → w < v) ∧
    (search run set = .none ↔ ∀ q ∈ permutations set, run q = .failed) ∧
    (search run set = .notYet ↔ ∃ q ∈ permutations set, run q = .notYet) ∧
    ((∀ q ∈ permutations set, run q ≠ .notYet) → (∃ q ∈ permutations set, ∃ v, run q = .signal v) →
      ∃ v order, search run set = .best v order)

/-- A pipeline has one fresh instance of the program for each phase setting, with that setting queued and, for instance 0 alone, the
initial signal 0 after it (44_host_interface.md R141). -/
def Obligations.PipelineInstancesAreSeeded : Prop :=
  ∀ (c : Params) (program phases : List Int), c.queueDepth = none →
    ∃ vms, buildPipeline c program phases = some vms ∧ vms.length = phases.length ∧
      ∀ (k : Nat) (phase : Int), phases[k]? = some phase →
        vms[k]? = some { newInstance c program with inq := if k = 0 then [phase, 0] else [phase] }

/-- A failed instance fails the whole candidate, in both modes (44_host_interface.md R144). Non-feedback: a stage that fails at any
of its calls, whatever signal it was given, ends the run as failed, and a stage that ends with a signal leaves the run to the stages
after it, given that signal. Feedback: an instance that fails at its turn ends the run as failed, and any turn that goes on leaves the
run to the turns after it. -/
def Obligations.FailedInstanceFailsTheCandidate : Prop :=
  ∀ fuel : Nat,
    (∀ (k : Nat) (s : State), FailsAtCall fuel k s → ∀ calls,
      runStage (calls + k + 1) fuel s = .failed ∧
      ∀ (carried : Option Int) (first : State) (rest : List State), pushAll carried.toList first = some s →
        runStages (calls + k + 1) fuel carried (first :: rest) = .failed) ∧
    (∀ (calls : Nat) (carried : Option Int) (first s : State) (rest : List State) (v : Int),
      pushAll carried.toList first = some s → runStage calls fuel s = .signal v →
      runStages calls fuel carried (first :: rest) = runStages calls fuel (some v) rest) ∧
    (∀ (turns : Nat) (r : FeedbackRing) (s : State), r.vms[r.turn]? = some s → FailsAtCall fuel 0 s →
      FeedbackRing.run (turns + 1) fuel r = .failed) ∧
    ∀ (turns : Nat) (r r' : FeedbackRing), r.step fuel = .go r' →
      FeedbackRing.run (turns + 1) fuel r = FeedbackRing.run turns fuel r'

/-- One turn of the feedback ring changes at most the instance whose turn it is and the queue of the next one, which receives
exactly the value the first one output (10_state.md R34, 44_host_interface.md R143). -/
def Obligations.RingTurnTouchesOnlyTwoInstances : Prop :=
  ∀ (fuel : Nat) (r r' : FeedbackRing), r.step fuel = .go r' →
    r'.vms.length = r.vms.length ∧ r'.turn = (r.turn + 1) % r.vms.length ∧
    (∀ j, j ≠ r.turn → j ≠ (r.turn + 1) % r.vms.length → r'.vms[j]? = r.vms[j]?) ∧
    ((r.turn + 1) % r.vms.length ≠ r.turn →
      r'.vms[(r.turn + 1) % r.vms.length]? = r.vms[(r.turn + 1) % r.vms.length]? ∨
      ∃ s u v, r.vms[(r.turn + 1) % r.vms.length]? = some s ∧ r'.vms[r.turn]? = some u ∧ u.out = some v ∧
        r'.vms[(r.turn + 1) % r.vms.length]? = some { s with inq := s.inq ++ [v] })

/-- The two pseudo-instructions' words (30_encoding.md R72), and that assembling a line and disassembling its cells are inverse
(R73). -/
def Obligations.DisassemblyInvertsAssembly : Prop :=
  (∀ (table : List (String × Nat)) (t : Int), AsmLine.cells table (.jmp (.lit t)) = some [1105, 1, t]) ∧
  (∀ (table : List (String × Nat)) (a c : Int), AsmLine.cells table (.mov (.lit a) (.lit c)) = some [1001, a, 0, c]) ∧
  ∀ (i : Instr) (ps : List Int) (m : Memory) (at_ : Nat), i.WellFormed → ps.length + 1 = i.width →
    (∀ k, k < i.width → m.lookup (at_ + k) = (encode i :: ps)[k]?) →
    disassembleLine m at_ = .ins (mnemonicOf i) ((i.modes.zip ps).map (fun p => ⟨p.1, .lit p.2⟩)) ∧
    disassembleWidth m at_ = i.width ∧
    AsmLine.cells [] (disassembleLine m at_) = some (encode i :: ps)
end

