-- ==== Sys2Proof/Laws/Decode.lean ====
section
/-! SUPPORT. The small lemmas of the decoder's fields: mode digits, and what `decode` answers for a word that is not
negative. -/

namespace Sys2Proof

/-- A well-formed mode is the one its digit selects. -/
theorem Mode.ofDigit_toDigit {m : Mode} (h : m.wf = true) : Mode.ofDigit m.toDigit = m := by
  cases m with
  | position => rfl
  | immediate => rfl
  | illegal d =>
    simp only [Mode.wf, Bool.and_eq_true, decide_eq_true_eq] at h
    obtain ⟨n, rfl⟩ : ∃ n, d = n + 2 := ⟨d - 2, by omega⟩
    rfl

/-- Every digit is the digit of the mode it selects. -/
@[simp] theorem Mode.toDigit_ofDigit (d : Nat) : (Mode.ofDigit d).toDigit = d := by
  match d with
  | 0 => rfl
  | 1 => rfl
  | _ + 2 => rfl

/-- A well-formed mode's digit is a decimal digit. -/
theorem Mode.toDigit_le {m : Mode} (h : m.wf = true) : m.toDigit ≤ 9 := by
  cases m <;> simp_all [Mode.wf, Mode.toDigit]

/-- The mode a decimal digit selects is well formed. -/
theorem Mode.ofDigit_wf {d : Nat} (h : d ≤ 9) : (Mode.ofDigit d).wf = true := by
  match d with
  | 0 => rfl
  | 1 => rfl
  | _ + 2 => simpa [Mode.ofDigit, Mode.wf] using h

/-- A digit is at most 9 (00_scope.md R8). -/
theorem digit_le (w : Int) (k : Nat) : digit w k ≤ 9 := by
  unfold digit
  omega

/-- A word that is not negative decodes to its four fields under every policy (40_decode_and_step.md R81). -/
theorem decode_of_nonneg {neg : NegWordDecode} {w : Int} (h : 0 ≤ w) : decode neg w = some (fieldsOf w) := by
  simp [decode, Int.not_lt.mpr h]

/-- An instruction is well formed exactly when each of its modes is. -/
theorem Instr.wellFormed_iff {i : Instr} : i.WellFormed ↔ ∀ m ∈ i.modes, m.wf = true := List.all_eq_true

/-- A word that is not negative decodes to the instruction its fields select, subject to the check of ignored digits alone. -/
theorem decodeInstr_of_nonneg {c : Params} {w : Int} (h : 0 ≤ w) :
    decodeInstr c w =
      match Instr.ofDecoded (fieldsOf w) with
      | none => .error .invalidOpcode
      | some i => if c.strictModes && ignoredNonzero c.negWord w (fieldsOf w) i then .error .invalidMode else .ok i := by
  unfold decodeInstr
  rw [decode_of_nonneg h]
  all_goals rfl

end Sys2Proof
end

