-- ==== Sys2Proof/Laws/Memory.lean ====
section
/-! SUPPORT. The sparse store (20_memory.md R41 to R43): read after write, the domain only grows, every operation keeps the
canonical form, and equal contents are equal data. -/

namespace Sys2Proof.Machine

@[simp] theorem Memory.lookup_nil (a : Nat) : Memory.lookup [] a = none := rfl

@[simp] theorem Memory.lookup_cons (b : Nat) (v : Int) (m : Memory) (a : Nat) :
    Memory.lookup ((b, v) :: m) a = if b = a then some v else Memory.lookup m a := rfl

/-- A read of the cell just written gives the value written (R43). -/
@[simp] theorem Memory.lookup_insert_self (m : Memory) (a : Nat) (v : Int) : (m.insert a v).lookup a = some v := by
  induction m with
  | nil => simp [Memory.insert]
  | cons x m ih =>
    obtain ⟨b, u⟩ := x
    unfold Memory.insert
    split
    · simp
    · split
      · simp
      · rename_i h₁ h₂
        simp [Ne.symm h₂, ih]

/-- A write leaves every other cell alone (R43). -/
theorem Memory.lookup_insert_of_ne (m : Memory) {a b : Nat} (v : Int) (h : b ≠ a) :
    (m.insert a v).lookup b = m.lookup b := by
  induction m with
  | nil => simp [Memory.insert, Ne.symm h]
  | cons x m ih =>
    obtain ⟨c, u⟩ := x
    unfold Memory.insert
    split
    · simp [Ne.symm h]
    · split
      · rename_i h₁ h₂
        subst h₂
        simp [Ne.symm h]
      · simp [ih]

/-- Both cases of a read after a write. -/
theorem Memory.lookup_insert (m : Memory) (a b : Nat) (v : Int) :
    (m.insert a v).lookup b = if b = a then some v else m.lookup b := by
  split
  · rename_i h
    subst h
    simp
  · rename_i h
    exact m.lookup_insert_of_ne v h

/-- Every key of the memory after an insert is the key inserted or one that was there. -/
theorem Memory.mem_insert {m : Memory} {a : Nat} {v : Int} {x : Nat × Int} (h : x ∈ m.insert a v) :
    x = (a, v) ∨ x ∈ m := by
  induction m with
  | nil => simpa [Memory.insert] using h
  | cons y m ih =>
    obtain ⟨b, u⟩ := y
    unfold Memory.insert at h
    split at h
    · simpa using h
    · split at h
      · rcases List.mem_cons.mp h with h | h
        · exact .inl h
        · exact .inr (List.mem_cons_of_mem _ h)
      · rcases List.mem_cons.mp h with h | h
        · exact .inr (h ▸ List.mem_cons_self)
        · exact (ih h).imp_right (List.mem_cons_of_mem _)

/-- A write keeps the canonical form. -/
theorem Memory.insert_wf {m : Memory} (h : m.wf) (a : Nat) (v : Int) : (m.insert a v).wf := by
  induction m with
  | nil => simp [Memory.insert, Memory.wf]
  | cons x m ih =>
    obtain ⟨b, u⟩ := x
    obtain ⟨hb, hm⟩ := List.pairwise_cons.mp h
    unfold Memory.insert
    split
    · rename_i hlt
      refine List.pairwise_cons.mpr ⟨fun y hy => ?_, h⟩
      rcases List.mem_cons.mp hy with rfl | hy
      · exact hlt
      · exact Nat.lt_trans hlt (hb y hy)
    · split
      · rename_i heq
        subst heq
        exact List.pairwise_cons.mpr ⟨hb, hm⟩
      · rename_i h₁ h₂
        refine List.pairwise_cons.mpr ⟨fun y hy => ?_, ih hm⟩
        rcases Memory.mem_insert hy with rfl | hy
        · exact Nat.lt_of_le_of_ne (Nat.le_of_not_lt h₁) (Ne.symm h₂)
        · exact hb y hy

/-- A cell at an address below every listed one is outside the domain. -/
theorem Memory.lookup_eq_none_of_lt {m : Memory} {a : Nat} (h : ∀ x ∈ m, a < x.1) : m.lookup a = none := by
  induction m with
  | nil => rfl
  | cons x m ih =>
    obtain ⟨b, u⟩ := x
    have hb : a < b := h (b, u) List.mem_cons_self
    simp [Nat.ne_of_gt hb, ih (fun y hy => h y (List.mem_cons_of_mem _ hy))]

/-- Two canonical memories with the same cells are the same data (10_state.md R31). -/
theorem Memory.ext_of_wf : ∀ {m n : Memory}, m.wf → n.wf → (∀ a, m.lookup a = n.lookup a) → m = n
  | [], [], _, _, _ => rfl
  | [], (b, u) :: n, _, _, h => by simpa using h b
  | (b, u) :: m, [], _, _, h => by simpa using h b
  | (b, u) :: m, (c, w) :: n, hm, hn, h => by
    obtain ⟨hb, hm'⟩ := List.pairwise_cons.mp hm
    obtain ⟨hc, hn'⟩ := List.pairwise_cons.mp hn
    have hbc : b = c := by
      rcases Nat.lt_trichotomy b c with hlt | heq | hgt
      · have := h b
        rw [Memory.lookup_eq_none_of_lt (m := (c, w) :: n)] at this
        · simp at this
        · intro x hx
          rcases List.mem_cons.mp hx with rfl | hx
          · exact hlt
          · exact Nat.lt_trans hlt (hc x hx)
      · exact heq
      · have := h c
        rw [Memory.lookup_eq_none_of_lt (m := (b, u) :: m)] at this
        · simp at this
        · intro x hx
          rcases List.mem_cons.mp hx with rfl | hx
          · exact hgt
          · exact Nat.lt_trans hgt (hb x hx)
    subst hbc
    have huw : u = w := by simpa using h b
    subst huw
    have : m = n := by
      refine Memory.ext_of_wf hm' hn' (fun a => ?_)
      by_cases ha : b = a
      · subst ha
        rw [Memory.lookup_eq_none_of_lt hb, Memory.lookup_eq_none_of_lt hc]
      · simpa [ha] using h a
    rw [this]

/-- Every address of an image is at or above its base. -/
theorem Memory.base_le_image {vs : List Int} {base : Nat} {x : Nat × Int} (h : x ∈ Memory.image base vs) :
    base ≤ x.1 := by
  induction vs generalizing base with
  | nil => simp [Memory.image] at h
  | cons v vs ih =>
    rcases List.mem_cons.mp h with rfl | h
    · exact Nat.le_refl _
    · exact Nat.le_of_succ_le (ih h)

/-- A program image is in canonical form. -/
theorem Memory.image_wf (base : Nat) (vs : List Int) : (Memory.image base vs).wf := by
  induction vs generalizing base with
  | nil => simp [Memory.image, Memory.wf]
  | cons v vs ih => exact List.pairwise_cons.mpr ⟨fun x hx => Memory.base_le_image hx, ih (base + 1)⟩

/-- The cells of a program image: element `i` at `base + i`, and no other (10_state.md R33). -/
theorem Memory.lookup_image (base : Nat) (vs : List Int) (a : Nat) :
    (Memory.image base vs).lookup a = if a < base then none else vs[a - base]? := by
  induction vs generalizing base with
  | nil => simp [Memory.image]
  | cons v vs ih =>
    simp only [Memory.image, Memory.lookup_cons, ih]
    by_cases h : base = a
    · subst h; simp
    · rcases Nat.lt_or_ge a base with hlt | hge
      · simp [h, hlt, Nat.lt_succ_of_lt hlt]
      · have hlt : base + 1 ≤ a := Nat.lt_of_le_of_ne hge h
        have : a - base = (a - (base + 1)) + 1 := by omega
        simp [h, Nat.not_lt.mpr hge, Nat.not_lt.mpr hlt, this]

/-- The reset memory is in canonical form. -/
theorem State.reset_mem_wf : State.reset.mem.wf := List.Pairwise.nil

/-- A new instance's memory is in canonical form. -/
theorem newInstance_mem_wf (c : Params) (program : List Int) : (newInstance c program).mem.wf :=
  Memory.image_wf 0 program

end Sys2Proof.Machine
end

