-- ==== Sys2Proof/Laws/State.lean ====
section
/-! SUPPORT. One lemma per field of State and per one-field update, so that no later proof unfolds a record update. -/

namespace Sys2Proof.Machine

@[simp] theorem putCell_ip (a : Nat) (v : Int) (s : State) : (putCell a v s).ip = s.ip := rfl
@[simp] theorem putCell_mem (a : Nat) (v : Int) (s : State) : (putCell a v s).mem = s.mem.insert a v := rfl
@[simp] theorem putCell_inq (a : Nat) (v : Int) (s : State) : (putCell a v s).inq = s.inq := rfl
@[simp] theorem putCell_out (a : Nat) (v : Int) (s : State) : (putCell a v s).out = s.out := rfl
@[simp] theorem putCell_status (a : Nat) (v : Int) (s : State) : (putCell a v s).status = s.status := rfl
@[simp] theorem putCell_cfg (a : Nat) (v : Int) (s : State) : (putCell a v s).cfg = s.cfg := rfl

@[simp] theorem advance_ip (n : Nat) (s : State) : (advance n s).ip = s.ip + n := rfl
@[simp] theorem advance_mem (n : Nat) (s : State) : (advance n s).mem = s.mem := rfl
@[simp] theorem advance_inq (n : Nat) (s : State) : (advance n s).inq = s.inq := rfl
@[simp] theorem advance_out (n : Nat) (s : State) : (advance n s).out = s.out := rfl
@[simp] theorem advance_status (n : Nat) (s : State) : (advance n s).status = s.status := rfl
@[simp] theorem advance_cfg (n : Nat) (s : State) : (advance n s).cfg = s.cfg := rfl

@[simp] theorem setIp_ip (a : Nat) (s : State) : (setIp a s).ip = a := rfl
@[simp] theorem setIp_mem (a : Nat) (s : State) : (setIp a s).mem = s.mem := rfl
@[simp] theorem setIp_inq (a : Nat) (s : State) : (setIp a s).inq = s.inq := rfl
@[simp] theorem setIp_out (a : Nat) (s : State) : (setIp a s).out = s.out := rfl
@[simp] theorem setIp_status (a : Nat) (s : State) : (setIp a s).status = s.status := rfl
@[simp] theorem setIp_cfg (a : Nat) (s : State) : (setIp a s).cfg = s.cfg := rfl

@[simp] theorem setOut_ip (v : Int) (s : State) : (setOut v s).ip = s.ip := rfl
@[simp] theorem setOut_mem (v : Int) (s : State) : (setOut v s).mem = s.mem := rfl
@[simp] theorem setOut_inq (v : Int) (s : State) : (setOut v s).inq = s.inq := rfl
@[simp] theorem setOut_out (v : Int) (s : State) : (setOut v s).out = some v := rfl
@[simp] theorem setOut_status (v : Int) (s : State) : (setOut v s).status = s.status := rfl
@[simp] theorem setOut_cfg (v : Int) (s : State) : (setOut v s).cfg = s.cfg := rfl

@[simp] theorem popInput_ip (s : State) : (popInput s).ip = s.ip := rfl
@[simp] theorem popInput_mem (s : State) : (popInput s).mem = s.mem := rfl
@[simp] theorem popInput_inq (s : State) : (popInput s).inq = s.inq.tail := rfl
@[simp] theorem popInput_out (s : State) : (popInput s).out = s.out := rfl
@[simp] theorem popInput_status (s : State) : (popInput s).status = s.status := rfl
@[simp] theorem popInput_cfg (s : State) : (popInput s).cfg = s.cfg := rfl

@[simp] theorem enterRunning_ip (s : State) : (enterRunning s).ip = s.ip := rfl
@[simp] theorem enterRunning_mem (s : State) : (enterRunning s).mem = s.mem := rfl
@[simp] theorem enterRunning_inq (s : State) : (enterRunning s).inq = s.inq := rfl
@[simp] theorem enterRunning_out (s : State) : (enterRunning s).out = s.out := rfl
@[simp] theorem enterRunning_status (s : State) : (enterRunning s).status = .running := rfl
@[simp] theorem enterRunning_cfg (s : State) : (enterRunning s).cfg = s.cfg := rfl

@[simp] theorem suspend_ip (k : SuspendKind) (s : State) : (suspend k s).ip = s.ip := rfl
@[simp] theorem suspend_mem (k : SuspendKind) (s : State) : (suspend k s).mem = s.mem := rfl
@[simp] theorem suspend_inq (k : SuspendKind) (s : State) : (suspend k s).inq = s.inq := rfl
@[simp] theorem suspend_out (k : SuspendKind) (s : State) : (suspend k s).out = s.out := rfl
@[simp] theorem suspend_status (k : SuspendKind) (s : State) : (suspend k s).status = .suspended k := rfl
@[simp] theorem suspend_cfg (k : SuspendKind) (s : State) : (suspend k s).cfg = s.cfg := rfl

@[simp] theorem halt_ip (s : State) : (halt s).ip = s.ip := rfl
@[simp] theorem halt_mem (s : State) : (halt s).mem = s.mem := rfl
@[simp] theorem halt_inq (s : State) : (halt s).inq = s.inq := rfl
@[simp] theorem halt_out (s : State) : (halt s).out = s.out := rfl
@[simp] theorem halt_status (s : State) : (halt s).status = .halted := rfl
@[simp] theorem halt_cfg (s : State) : (halt s).cfg = s.cfg := rfl

@[simp] theorem raiseFail_ip (r : FailReason) (s : State) : (raiseFail r s).ip = s.ip := rfl
@[simp] theorem raiseFail_mem (r : FailReason) (s : State) : (raiseFail r s).mem = s.mem := rfl
@[simp] theorem raiseFail_inq (r : FailReason) (s : State) : (raiseFail r s).inq = s.inq := rfl
@[simp] theorem raiseFail_out (r : FailReason) (s : State) : (raiseFail r s).out = s.out := rfl
@[simp] theorem raiseFail_status (r : FailReason) (s : State) : (raiseFail r s).status = .failed r := rfl
@[simp] theorem raiseFail_cfg (r : FailReason) (s : State) : (raiseFail r s).cfg = s.cfg := rfl

end Sys2Proof.Machine
end

