-- ==== Sys2Proof/Laws/Ops.lean ====
section
/-! SUPPORT. What the memory controller's two primitives can do (20_memory.md R42, R43), said once, in the terms of
Sys2Proof/Safety.lean; and the two outcomes of a handler. -/

namespace Sys2Proof.Machine

theorem beyondLimit_eq_true {c : Params} {a : Int} :
    beyondLimit c a = true ↔ ∃ l, c.memLimit = some l ∧ (l : Int) ≤ a := by
  unfold beyondLimit
  cases c.memLimit <;> simp

theorem beyondLimit_eq_false {c : Params} {a : Int} :
    beyondLimit c a = false ↔ ∀ l, c.memLimit = some l → a < (l : Int) := by
  unfold beyondLimit
  cases c.memLimit <;> simp

theorem badAddress_iff {s : State} {a : Int} : BadAddress s a ↔ a < 0 ∨ beyondLimit s.cfg a = true := by
  simp [BadAddress, beyondLimit_eq_true]

/-- `MemRead` answers a value exactly when the cell holds it (R42). -/
theorem memRead_eq_ok {s : State} {a v : Int} : memRead s a = .ok v ↔ Holds s a v := by
  unfold memRead Holds
  rw [← beyondLimit_eq_false]
  by_cases h₀ : a < 0
  · simp [h₀, Int.not_le.mpr h₀]
  · by_cases hb : beyondLimit s.cfg a = true
    · simp [h₀, hb]
    · simp only [h₀, hb, if_false, Int.not_lt.mp h₀]
      cases hl : s.mem.lookup a.toNat with
      | some u => simp
      | none => cases s.cfg.unsetRead <;> simp [eq_comm]

/-- `MemRead` fails exactly as R42 says. -/
theorem memRead_eq_error {s : State} {a : Int} {r : FailReason} : memRead s a = .error r ↔ CellFails s a r := by
  unfold memRead CellFails
  rw [badAddress_iff]
  by_cases h₀ : a < 0
  · simpa [h₀] using eq_comm
  · by_cases hb : beyondLimit s.cfg a = true
    · simpa [h₀, hb] using eq_comm
    · simp only [h₀, hb, if_false]
      cases hl : s.mem.lookup a.toNat with
      | some u => simp
      | none => cases s.cfg.unsetRead <;> simp [eq_comm]

/-- Every read answers a value or fails. -/
theorem holds_or_fails (s : State) (a : Int) : (∃ v, Holds s a v) ∨ ∃ r, CellFails s a r := by
  cases h : memRead s a with
  | ok v => exact .inl ⟨v, memRead_eq_ok.mp h⟩
  | error r => exact .inr ⟨r, memRead_eq_error.mp h⟩

/-- A read answers at most one value. -/
theorem Holds.unique {s : State} {a u v : Int} (hu : Holds s a u) (hv : Holds s a v) : u = v := by
  have := (memRead_eq_ok.mpr hu).symm.trans (memRead_eq_ok.mpr hv)
  simpa using this

/-- `MemWrite` answers a state exactly when the address names a cell, and then stores that one value (R43). -/
theorem memWrite_eq_ok {s t : State} {a v : Int} :
    memWrite s a v = .ok t ↔ ¬ BadAddress s a ∧ t = putCell a.toNat v s := by
  unfold memWrite
  rw [badAddress_iff]
  by_cases h₀ : a < 0
  · simp [h₀]
  · by_cases hb : beyondLimit s.cfg a = true <;> simp [h₀, hb, eq_comm]

/-- `MemWrite` fails exactly at an address that names no cell, with `InvalidAddress` (R43). -/
theorem memWrite_eq_error {s : State} {a v : Int} {r : FailReason} :
    memWrite s a v = .error r ↔ BadAddress s a ∧ r = .invalidAddress := by
  unfold memWrite
  rw [badAddress_iff]
  by_cases h₀ : a < 0
  · simpa [h₀] using eq_comm
  · by_cases hb : beyondLimit s.cfg a = true
    · simpa [h₀, hb] using eq_comm
    · simp [h₀, hb]

/-- A handler's step always answers a next state: the handler's, or the failure's entry (60_exceptions.md R162). -/
theorem runHandler_eq_next {s t : State} {h : Except FailReason State} :
    runHandler s h = .next t ↔ h = .ok t ∨ ∃ r, h = .error r ∧ t = raiseFail r s := by
  cases h <;> simp [runHandler, eq_comm]

@[simp] theorem runHandler_ok (s t : State) : runHandler s (.ok t) = .next t := rfl

@[simp] theorem runHandler_error (s : State) (r : FailReason) : runHandler s (.error r) = .next (raiseFail r s) := rfl

end Sys2Proof.Machine
end

