-- ==== Sys2Proof/Laws/Operands.lean ====
section
/-! SUPPORT. Operand resolution (40_decode_and_step.md R83 to R85): what the two operations answer, said once. -/

namespace Sys2Proof.Machine

theorem paramWord_eq_ok {s : State} {i : Nat} {p : Int} : paramWord s i = .ok p ↔ Holds s (s.ip + i) p := by
  unfold paramWord
  rw [memRead_eq_ok]
  simp

theorem paramWord_eq_error {s : State} {i : Nat} {r : FailReason} :
    paramWord s i = .error r ↔ CellFails s (s.ip + i) r := by
  unfold paramWord
  rw [memRead_eq_error]
  simp

/-- A cell that holds a value does not fail. -/
theorem Holds.not_fails {s : State} {a v : Int} {r : FailReason} (h : Holds s a v) : ¬ CellFails s a r := by
  intro hf
  have := (memRead_eq_ok.mpr h).symm.trans (memRead_eq_error.mpr hf)
  simp at this

/-- `ResolveRead` answers exactly the operand (R84). -/
theorem resolveRead_eq_ok {s : State} {i : Nat} {m : Mode} {v : Int} :
    resolveRead s i m = .ok v ↔ OperandIs s i m v := by
  unfold resolveRead OperandIs
  cases hp : paramWord s i with
  | error r =>
    have hf := paramWord_eq_error.mp hp
    simp only [bind, Except.bind, reduceCtorEq, false_iff]
    rintro ⟨p, hh, _⟩
    exact hh.not_fails hf
  | ok p =>
    have hh := paramWord_eq_ok.mp hp
    have one : ∀ q, Holds s (s.ip + i) q → q = p := fun q hq => hq.unique hh
    simp only [bind, Except.bind]
    constructor
    · intro h
      refine ⟨p, hh, ?_⟩
      cases m <;> simp_all [memRead_eq_ok]
    · rintro ⟨q, hq, h⟩
      obtain rfl := one q hq
      cases m <;> simp_all [memRead_eq_ok]

/-- `ResolveRead` fails exactly as R84 says. -/
theorem resolveRead_eq_error {s : State} {i : Nat} {m : Mode} {r : FailReason} :
    resolveRead s i m = .error r ↔ OperandFails s i m r := by
  unfold resolveRead OperandFails
  cases hp : paramWord s i with
  | error r' =>
    have hf := paramWord_eq_error.mp hp
    simp only [bind, Except.bind]
    constructor
    · intro h
      obtain rfl : r' = r := by simpa using h
      exact .inl hf
    · rintro (h | ⟨p, hh, _⟩)
      · have := (paramWord_eq_error.mpr h).symm.trans hp
        simpa [eq_comm] using this
      · exact absurd hf hh.not_fails
  | ok p =>
    have hh := paramWord_eq_ok.mp hp
    have one : ∀ q, Holds s (s.ip + i) q → q = p := fun q hq => hq.unique hh
    simp only [bind, Except.bind]
    constructor
    · intro h
      refine .inr ⟨p, hh, ?_⟩
      cases m <;> simp_all [memRead_eq_error]
    · rintro (h | ⟨q, hq, h⟩)
      · exact absurd h hh.not_fails
      · obtain rfl := one q hq
        cases m <;> simp_all [memRead_eq_error]

/-- `ResolveWrite` answers exactly the target (R85). -/
theorem resolveWrite_eq_ok {s : State} {i : Nat} {m : Mode} {a : Int} :
    resolveWrite s i m = .ok a ↔ ∃ n : Nat, a = n ∧ TargetIs s i m n := by
  unfold resolveWrite TargetIs
  cases hp : paramWord s i with
  | error r =>
    have hf := paramWord_eq_error.mp hp
    simp only [bind, Except.bind, reduceCtorEq, false_iff]
    rintro ⟨n, rfl, _, hh⟩
    exact hh.not_fails hf
  | ok p =>
    have hh := paramWord_eq_ok.mp hp
    have one : ∀ q, Holds s (s.ip + i) q → q = p := fun q hq => hq.unique hh
    simp only [bind, Except.bind]
    cases m with
    | position =>
      by_cases h₀ : p < 0
      · simp only [h₀, if_true, reduceCtorEq, false_iff]
        rintro ⟨n, rfl, _, hn⟩
        have := one _ hn
        omega
      · simp only [h₀, if_false, Except.ok.injEq, true_and]
        constructor
        · rintro rfl
          exact ⟨p.toNat, by omega, by rwa [Int.toNat_of_nonneg (Int.not_lt.mp h₀)]⟩
        · rintro ⟨n, rfl, hn⟩
          exact (one _ hn).symm
    | immediate => simp
    | illegal d => simp

/-- `ResolveWrite` fails exactly as R85 says. -/
theorem resolveWrite_eq_error {s : State} {i : Nat} {m : Mode} {r : FailReason} :
    resolveWrite s i m = .error r ↔ TargetFails s i m r := by
  unfold resolveWrite TargetFails
  cases hp : paramWord s i with
  | error r' =>
    have hf := paramWord_eq_error.mp hp
    simp only [bind, Except.bind]
    constructor
    · intro h
      obtain rfl : r' = r := by simpa using h
      exact .inl hf
    · rintro (h | ⟨p, hh, _⟩)
      · have := (paramWord_eq_error.mpr h).symm.trans hp
        simpa [eq_comm] using this
      · exact absurd hf hh.not_fails
  | ok p =>
    have hh := paramWord_eq_ok.mp hp
    have one : ∀ q, Holds s (s.ip + i) q → q = p := fun q hq => hq.unique hh
    simp only [bind, Except.bind]
    constructor
    · intro h
      refine .inr ⟨p, hh, ?_⟩
      cases m
      · by_cases h₀ : p < 0 <;> simp_all
      · simp_all
      · simp_all
    · rintro (h | ⟨q, hq, h⟩)
      · exact absurd h hh.not_fails
      · obtain rfl := one q hq
        cases m <;> simp_all

theorem OperandIs.unique {s : State} {i : Nat} {m : Mode} {u v : Int} (hu : OperandIs s i m u)
    (hv : OperandIs s i m v) : u = v := by
  have := (resolveRead_eq_ok.mpr hu).symm.trans (resolveRead_eq_ok.mpr hv)
  simpa using this

theorem TargetIs.unique {s : State} {i : Nat} {m : Mode} {a b : Nat} (ha : TargetIs s i m a)
    (hb : TargetIs s i m b) : a = b := by
  have := ha.2.unique hb.2
  omega

end Sys2Proof.Machine
end

