-- ==== Sys2Proof/Laws/Handlers.lean ====
section
/-! SUPPORT. What each handler can do (41_arithmetic.md, 42_io.md, 43_control.md), and from that what exec can do, said once:
later proofs cite these and never unfold a handler. -/

namespace Sys2Proof.Machine

/-- A target that no `MEM_LIMIT` cuts off is an address that names a cell, and the other way round. -/
theorem not_badAddress_natCast {s : State} {o : Nat} :
    ¬ BadAddress s (o : Int) ↔ ∀ l, s.cfg.memLimit = some l → o < l := by
  simp [BadAddress, Int.not_lt.mpr (Int.natCast_nonneg o)]

/-- The family of ADD, MUL, LT and EQ completes exactly when its parameters resolve, its result exists and its target names a
cell; it then writes that one cell and advances by 4 (R100 to R103). -/
theorem threeCell_eq_ok {f : Int → Int → Except FailReason Int} {m1 m2 m3 : Mode} {s t : State} :
    threeCell f m1 m2 m3 s = .ok t ↔
      ∃ a b o v, OperandIs s 1 m1 a ∧ OperandIs s 2 m2 b ∧ TargetIs s 3 m3 o ∧ f a b = .ok v ∧
        ¬ BadAddress s (o : Int) ∧ t = advance 4 (putCell o v s) := by
  unfold threeCell
  constructor
  · intro h
    cases h1 : resolveRead s 1 m1 with
    | error r => simp [h1, bind, Except.bind] at h
    | ok a =>
      cases h2 : resolveRead s 2 m2 with
      | error r => simp [h1, h2, bind, Except.bind] at h
      | ok b =>
        cases h3 : resolveWrite s 3 m3 with
        | error r => simp [h1, h2, h3, bind, Except.bind] at h
        | ok o =>
          cases h4 : f a b with
          | error r => simp [h1, h2, h3, h4, bind, Except.bind] at h
          | ok v =>
            cases h5 : memWrite s o v with
            | error r => simp [h1, h2, h3, h4, h5, bind, Except.bind] at h
            | ok u =>
              obtain ⟨n, rfl, hn⟩ := resolveWrite_eq_ok.mp h3
              obtain ⟨hb, rfl⟩ := memWrite_eq_ok.mp h5
              simp only [h1, h2, h3, h4, h5, bind, Except.bind, Except.ok.injEq] at h
              exact ⟨a, b, n, v, resolveRead_eq_ok.mp h1, resolveRead_eq_ok.mp h2, hn, h4, hb, by simpa using h.symm⟩
  · rintro ⟨a, b, o, v, h1, h2, h3, h4, hb, rfl⟩
    have h3' : resolveWrite s 3 m3 = .ok (o : Int) := resolveWrite_eq_ok.mpr ⟨o, rfl, h3⟩
    have h5 : memWrite s (o : Int) v = .ok (putCell o v s) := memWrite_eq_ok.mpr ⟨hb, by simp⟩
    simp [resolveRead_eq_ok.mpr h1, resolveRead_eq_ok.mpr h2, h3', h4, h5, bind, Except.bind]

/-- The family fails with the first failure in the order of 60_exceptions.md R163. -/
theorem threeCell_eq_error {f : Int → Int → Except FailReason Int} {m1 m2 m3 : Mode} {s : State} {r : FailReason} :
    threeCell f m1 m2 m3 s = .error r ↔
      OperandFails s 1 m1 r ∨
        ∃ a, OperandIs s 1 m1 a ∧ (OperandFails s 2 m2 r ∨
          ∃ b, OperandIs s 2 m2 b ∧ (TargetFails s 3 m3 r ∨
            ∃ o, TargetIs s 3 m3 o ∧ (f a b = .error r ∨
              ∃ v, f a b = .ok v ∧ BadAddress s (o : Int) ∧ r = .invalidAddress))) := by
  unfold threeCell
  simp only [← resolveRead_eq_ok, ← resolveRead_eq_error, ← resolveWrite_eq_error]
  cases h1 : resolveRead s 1 m1 with
  | error r1 => simp [bind, Except.bind]
  | ok a =>
    cases h2 : resolveRead s 2 m2 with
    | error r2 => simp [bind, Except.bind]
    | ok b =>
      cases h3 : resolveWrite s 3 m3 with
      | error r3 =>
        have hn : ∀ o, ¬ TargetIs s 3 m3 o := fun o ho => by
          have := (resolveWrite_eq_ok.mpr ⟨o, rfl, ho⟩).symm.trans h3
          simp at this
        simp [bind, Except.bind, hn]
      | ok o' =>
        obtain ⟨n, rfl, hn⟩ := resolveWrite_eq_ok.mp h3
        have hu : ∀ o, TargetIs s 3 m3 o ↔ o = n :=
          fun o => ⟨fun ho => ho.unique hn, fun ho => ho ▸ hn⟩
        cases h4 : f a b with
        | error r4 => simp [bind, Except.bind, hu, h4]
        | ok v =>
          cases h5 : memWrite s (n : Int) v with
          | error r5 =>
            obtain ⟨hb, rfl⟩ := memWrite_eq_error.mp h5
            simpa [bind, Except.bind, hu, h4, h5, hb] using eq_comm
          | ok u =>
            have hb := (memWrite_eq_ok.mp h5).1
            simp [bind, Except.bind, hu, h4, h5, hb]

/-- IN completes in two ways (R110): it suspends on an empty queue with nothing else changed, or it moves the head of the
queue to its target and advances by 2. -/
theorem inputCell_eq_ok {m1 : Mode} {s t : State} :
    inputCell m1 s = .ok t ↔
      ∃ o, TargetIs s 1 m1 o ∧
        (s.inq = [] ∧ t = suspend .needsInput s ∨
          ∃ v vs, s.inq = v :: vs ∧ ¬ BadAddress s (o : Int) ∧ t = advance 2 (popInput (putCell o v s))) := by
  unfold inputCell
  cases h1 : resolveWrite s 1 m1 with
  | error r =>
    have hn : ∀ o, ¬ TargetIs s 1 m1 o := fun o ho => by
      have := (resolveWrite_eq_ok.mpr ⟨o, rfl, ho⟩).symm.trans h1
      simp at this
    simp [bind, Except.bind, hn]
  | ok o' =>
    obtain ⟨n, rfl, hn⟩ := resolveWrite_eq_ok.mp h1
    have hu : ∀ o, TargetIs s 1 m1 o ↔ o = n := fun o => ⟨fun ho => ho.unique hn, fun ho => ho ▸ hn⟩
    cases hq : s.inq with
    | nil => simp [bind, Except.bind, hu, eq_comm (a := t)]
    | cons v vs =>
      cases h5 : memWrite s (n : Int) v with
      | error r =>
        have hb := (memWrite_eq_error.mp h5).1
        simp [bind, Except.bind, hu, h5, hb]
      | ok u =>
        obtain ⟨hb, rfl⟩ := memWrite_eq_ok.mp h5
        simp [bind, Except.bind, hu, h5, hb, eq_comm (a := t)]

/-- OUT completes exactly when its operand resolves (R111). -/
theorem outputCell_eq_ok {m1 : Mode} {s t : State} :
    outputCell m1 s = .ok t ↔
      ∃ v, OperandIs s 1 m1 v ∧ t = suspend .producedOutput (advance 2 (setOut v s)) := by
  unfold outputCell
  simp only [← resolveRead_eq_ok]
  cases h1 : resolveRead s 1 m1 <;> simp [bind, Except.bind, eq_comm]

/-- A conditional jump completes when its parameters resolve (R120, R121): taken, to a target that is not negative; or not
taken, past its three cells. -/
theorem condJump_eq_ok {taken : Int → Bool} {m1 m2 : Mode} {s t : State} :
    condJump taken m1 m2 s = .ok t ↔
      ∃ a b, OperandIs s 1 m1 a ∧ OperandIs s 2 m2 b ∧
        (taken a = true ∧ 0 ≤ b ∧ t = setIp b.toNat s ∨ taken a = false ∧ t = advance 3 s) := by
  unfold condJump
  simp only [← resolveRead_eq_ok]
  cases h1 : resolveRead s 1 m1 with
  | error r => simp [bind, Except.bind]
  | ok a =>
    cases h2 : resolveRead s 2 m2 with
    | error r => simp [bind, Except.bind]
    | ok b =>
      cases ht : taken a with
      | false => simp [bind, Except.bind, ht, eq_comm (a := t)]
      | true =>
        by_cases hb : b < 0
        · simp [bind, Except.bind, ht, hb]
        · simp [bind, Except.bind, ht, hb, Int.not_lt.mp hb, eq_comm (a := t)]

/-- Every instruction answers a next state: exec neither faults nor refuses. -/
theorem exec_next (i : Instr) (s : State) : ∃ t, exec i s = .next t := by
  have any : ∀ h, ∃ t, runHandler s h = .next t := fun h => by cases h <;> simp
  cases i with
  | hlt => exact any (.ok (halt s))
  | _ => exact any _

/-- Everything one instruction can do (R89): fail, with only the status changed; or complete or suspend with its own
effect. -/
theorem exec_cases {i : Instr} {s t : State} (h : exec i s = .next t) :
    (∃ r, t = raiseFail r s) ∨
    (∃ o v, WritesCell i s o ∧ ¬ BadAddress s (o : Int) ∧ i.width = 4 ∧ t = advance 4 (putCell o v s)) ∨
    (∃ m o v vs, i = .inp m ∧ TargetIs s 1 m o ∧ ¬ BadAddress s (o : Int) ∧ s.inq = v :: vs ∧
      t = advance 2 (popInput (putCell o v s))) ∨
    (∃ m o, i = .inp m ∧ TargetIs s 1 m o ∧ s.inq = [] ∧ t = suspend .needsInput s) ∨
    (∃ m v, i = .outp m ∧ OperandIs s 1 m v ∧ t = suspend .producedOutput (advance 2 (setOut v s))) ∨
    (∃ a, i.width = 3 ∧ t = setIp a s) ∨
    (i.width = 3 ∧ t = advance 3 s) ∨
    (i = .hlt ∧ t = halt s) := by
  have three : ∀ {f : Int → Int → Except FailReason Int} {m1 m2 m3 : Mode}, writeParam i = some (3, m3) → i.width = 4 →
      runHandler s (threeCell f m1 m2 m3 s) = .next t →
      (∃ r, t = raiseFail r s) ∨
      (∃ o v, WritesCell i s o ∧ ¬ BadAddress s (o : Int) ∧ i.width = 4 ∧ t = advance 4 (putCell o v s)) := by
    intro f m1 m2 m3 hp hw h
    rcases runHandler_eq_next.mp h with h | ⟨r, _, rfl⟩
    · obtain ⟨a, b, o, v, _, _, h3, _, hb, rfl⟩ := threeCell_eq_ok.mp h
      exact .inr ⟨o, v, ⟨3, m3, hp, h3⟩, hb, hw, rfl⟩
    · exact .inl ⟨r, rfl⟩
  have jump : ∀ {c : Int → Bool} {m1 m2 : Mode}, i.width = 3 → runHandler s (condJump c m1 m2 s) = .next t →
      (∃ r, t = raiseFail r s) ∨ (∃ a, i.width = 3 ∧ t = setIp a s) ∨ (i.width = 3 ∧ t = advance 3 s) := by
    intro c m1 m2 hw h
    rcases runHandler_eq_next.mp h with h | ⟨r, _, rfl⟩
    · obtain ⟨a, b, _, _, ⟨_, _, rfl⟩ | ⟨_, rfl⟩⟩ := condJump_eq_ok.mp h
      · exact .inr (.inl ⟨_, hw, rfl⟩)
      · exact .inr (.inr ⟨hw, rfl⟩)
    · exact .inl ⟨r, rfl⟩
  cases i with
  | add m1 m2 m3 => exact (three (m3 := m3) rfl rfl h).imp_right .inl
  | mul m1 m2 m3 => exact (three (m3 := m3) rfl rfl h).imp_right .inl
  | lt m1 m2 m3 => exact (three (m3 := m3) rfl rfl h).imp_right .inl
  | eq m1 m2 m3 => exact (three (m3 := m3) rfl rfl h).imp_right .inl
  | jt m1 m2 =>
    exact (jump rfl h).imp_right fun h => .inr (.inr (.inr (.inr (h.imp_right .inl))))
  | jf m1 m2 =>
    exact (jump rfl h).imp_right fun h => .inr (.inr (.inr (.inr (h.imp_right .inl))))
  | inp m1 =>
    rcases runHandler_eq_next.mp h with h | ⟨r, _, rfl⟩
    · obtain ⟨o, ho, ⟨hq, rfl⟩ | ⟨v, vs, hq, hb, rfl⟩⟩ := inputCell_eq_ok.mp h
      · exact .inr (.inr (.inr (.inl ⟨m1, o, rfl, ho, hq, rfl⟩)))
      · exact .inr (.inr (.inl ⟨m1, o, v, vs, rfl, ho, hb, hq, rfl⟩))
    · exact .inl ⟨r, rfl⟩
  | outp m1 =>
    rcases runHandler_eq_next.mp h with h | ⟨r, _, rfl⟩
    · obtain ⟨v, hv, rfl⟩ := outputCell_eq_ok.mp h
      exact .inr (.inr (.inr (.inr (.inl ⟨m1, v, rfl, hv, rfl⟩))))
    · exact .inl ⟨r, rfl⟩
  | hlt =>
    have h : runHandler s (.ok (halt s)) = .next t := h
    exact .inr (.inr (.inr (.inr (.inr (.inr (.inr ⟨rfl, by simpa [eq_comm] using h⟩))))))

end Sys2Proof.Machine
end

