-- ==== Sys2Proof/Laws/PerInstr.lean ====
section
/-! SUPPORT. The statements made instruction by instruction. Family `EncodedShape`: the canonical word of an instruction is
not negative and carries its opcode in the two low digits (30_encoding.md R67, R71), and its width is one cell more than the
parameters it has (R60, R64). -/

namespace Sys2Proof.Laws.EncodedShape

/-- The statement of the family about one instruction. -/
def Statement (i : Instr) : Prop :=
  0 ≤ encode i ∧ encode i % 100 = (i.opcode : Int) ∧ i.width = i.modes.length + 1

theorem add (m1 m2 m3 : Mode) : Statement (.add m1 m2 m3) := by
  refine ⟨?_, ?_, rfl⟩ <;> simp only [encode, Instr.modes, Instr.opcode, List.map] <;> omega

theorem mul (m1 m2 m3 : Mode) : Statement (.mul m1 m2 m3) := by
  refine ⟨?_, ?_, rfl⟩ <;> simp only [encode, Instr.modes, Instr.opcode, List.map] <;> omega

theorem inp (m1 : Mode) : Statement (.inp m1) := by
  refine ⟨?_, ?_, rfl⟩ <;> simp only [encode, Instr.modes, Instr.opcode, List.map] <;> omega

theorem outp (m1 : Mode) : Statement (.outp m1) := by
  refine ⟨?_, ?_, rfl⟩ <;> simp only [encode, Instr.modes, Instr.opcode, List.map] <;> omega

theorem jt (m1 m2 : Mode) : Statement (.jt m1 m2) := by
  refine ⟨?_, ?_, rfl⟩ <;> simp only [encode, Instr.modes, Instr.opcode, List.map] <;> omega

theorem jf (m1 m2 : Mode) : Statement (.jf m1 m2) := by
  refine ⟨?_, ?_, rfl⟩ <;> simp only [encode, Instr.modes, Instr.opcode, List.map] <;> omega

theorem lt (m1 m2 m3 : Mode) : Statement (.lt m1 m2 m3) := by
  refine ⟨?_, ?_, rfl⟩ <;> simp only [encode, Instr.modes, Instr.opcode, List.map] <;> omega

theorem eq (m1 m2 m3 : Mode) : Statement (.eq m1 m2 m3) := by
  refine ⟨?_, ?_, rfl⟩ <;> simp only [encode, Instr.modes, Instr.opcode, List.map] <;> omega

theorem hlt : Statement .hlt := by
  refine ⟨?_, ?_, rfl⟩ <;> decide

end Sys2Proof.Laws.EncodedShape
end

