-- ==== Sys2Proof/Laws/Step.lean ====
section
/-! SUPPORT. What a step can do (40_decode_and_step.md R86, R91), said once, and what the loop of `run_until_suspend` can. -/

namespace Sys2Proof.Machine

/-- The fetch and decode answer an instruction exactly when the cell at the pointer holds a word that decodes to it. -/
theorem fetchDecode_eq_ok {s : State} {i : Instr} :
    fetchDecode s = .ok i ↔ ∃ w, Holds s s.ip w ∧ decodeInstr s.cfg w = .ok i := by
  unfold fetchDecode
  simp only [← memRead_eq_ok]
  cases memRead s s.ip <;> simp [bind, Except.bind]

/-- The fetch and decode fail when the fetch fails or the word held does not decode. -/
theorem fetchDecode_eq_error {s : State} {r : FailReason} :
    fetchDecode s = .error r ↔ CellFails s s.ip r ∨ ∃ w, Holds s s.ip w ∧ decodeInstr s.cfg w = .error r := by
  unfold fetchDecode
  simp only [← memRead_eq_ok, ← memRead_eq_error]
  cases memRead s s.ip <;> simp [bind, Except.bind]

@[simp] theorem fetchDecode_enterRunning (s : State) : fetchDecode (enterRunning s) = fetchDecode s := rfl

/-- Everything an instruction step can do: fail at the fetch or the decode, or run the decoded instruction. -/
theorem instructionStep_eq_next {s t : State} :
    instructionStep s = .next t ↔
      (∃ r, fetchDecode s = .error r ∧ t = raiseFail r s) ∨ ∃ i, fetchDecode s = .ok i ∧ exec i s = .next t := by
  unfold instructionStep
  cases fetchDecode s <;> simp [eq_comm]

/-- Everything a step can do. -/
theorem step_eq_next {s t : State} :
    step s = .next t ↔
      s.status.terminal = true ∧ t = s ∨
        s.status.terminal = false ∧ instructionStep (enterRunning s) = .next t := by
  unfold step driveStep
  cases s.status.terminal <;> simp [eq_comm]

/-- An instruction step always answers a next state. -/
theorem instructionStep_next (s : State) : ∃ t, instructionStep s = .next t := by
  unfold instructionStep
  cases fetchDecode s with
  | error r => exact ⟨_, rfl⟩
  | ok i => exact exec_next i s

/-- Running any machine one step more is a step and then the rest. -/
theorem run_succ_of_step (M : Host.Core) {k : Nat} {s t : M.State} (h : M.step s = .next t) :
    M.run (k + 1) s = M.run k t := by
  rw [Host.Core.run, h]

/-- Running one step more is a step and then the rest. -/
theorem core_run_succ {k : Nat} {s t : State} (h : step s = .next t) : core.run (k + 1) s = core.run k t :=
  run_succ_of_step core h

/-- A step from a state that is not terminal is the same as from that state with the status Running (R91). -/
theorem step_enterRunning {s : State} (h : s.status.terminal = false) : step (enterRunning s) = step s := by
  have h' : (enterRunning s).status.terminal = false := rfl
  unfold step driveStep
  rw [h, h']
  rfl

/-- The loop at a state that is not Running returns it (R91). -/
theorem runLoop_of_ne {fuel : Nat} {s : State} (h : s.status ≠ .running) : runLoop fuel s = some s := by
  unfold runLoop
  simp [h]

/-- The loop at a Running state takes one instruction step and goes on with one unit of fuel less (R91). -/
theorem runLoop_succ {fuel : Nat} {s t : State} (hr : s.status = .running) (h : instructionStep s = .next t) :
    runLoop (fuel + 1) s = runLoop fuel t := by
  rw [runLoop]
  simp [hr, h]

/-- The loop without fuel at a Running state has not returned (R93). -/
theorem runLoop_zero {s : State} (hr : s.status = .running) : runLoop 0 s = none := by
  unfold runLoop
  simp [hr]

/-- A call on a terminal instance returns it as it is (R91). -/
theorem runUntilSuspend_of_terminal {fuel : Nat} {s : State} (h : s.status.terminal = true) :
    runUntilSuspend fuel s = some s := by
  simp [runUntilSuspend, h]

/-- A call on any other instance enters `Running` and loops (R91). -/
theorem runUntilSuspend_of_not_terminal {fuel : Nat} {s : State} (h : s.status.terminal = false) :
    runUntilSuspend fuel s = runLoop fuel (enterRunning s) := by
  simp [runUntilSuspend, h]

end Sys2Proof.Machine
end

