-- ==== Sys2Proof/Tests/Slice0.lean ====
section
/-! SUPPORT. The model's own tests. Expected results are those of spec/95_test_vectors.md (its identifiers stand in the names or the
comments) or worked by hand from the rule named; and for every obligation with hypotheses, a witness that meets them. -/

namespace Sys2Proof.Tests

open Sys2Proof Sys2Proof.Machine

/-! ### Helpers -/

/-- A new instance under the parameters of R6. -/
def fresh (program : List Int) : State := newInstance Params.spec program

/-- A new instance with queued inputs. -/
def freshWith (program inputs : List Int) : State := { fresh program with inq := inputs }

/-- A check of the state after one step. -/
def after (s : State) (check : State → Bool) : Bool :=
  match step s with
  | .next t => check t
  | .fault _ => false
  | .refused _ => false

/-- A failed status with pointer and memory as before. -/
def failsAt (s : State) (r : FailReason) : Bool :=
  after s (fun t => t == { s with status := .failed r })

/-! ### Well-formedness: an ill-formed term for each check -/

theorem test_mode_digit_one_is_no_illegal_mode : (Mode.illegal 1).wf = false := by decide

theorem test_mode_digit_ten_is_no_digit : (Mode.illegal 10).wf = false := by decide

theorem test_wf_bounds : (Mode.illegal 2).wf = true ∧ (Mode.illegal 9).wf = true := by decide

theorem test_ill_formed_in_each_place :
    ¬ (Instr.add (.illegal 0) .position .position).WellFormed ∧ ¬ (Instr.add .position (.illegal 1) .position).WellFormed ∧
    ¬ (Instr.add .position .position (.illegal 10)).WellFormed ∧ ¬ (Instr.mul .position (.illegal 12) .position).WellFormed ∧
    ¬ (Instr.inp (.illegal 10)).WellFormed ∧ ¬ (Instr.outp (.illegal 1)).WellFormed ∧
    ¬ (Instr.jt .position (.illegal 10)).WellFormed ∧ ¬ (Instr.jf (.illegal 1) .position).WellFormed ∧
    ¬ (Instr.lt .position .position (.illegal 0)).WellFormed ∧ ¬ (Instr.eq (.illegal 11) .position .position).WellFormed ∧
    Instr.hlt.WellFormed := by decide

/-- 30_encoding.md R68: the illegal encodings are well formed and not legal. -/
theorem test_illegal_encodings :
    ¬ (Instr.add .position .position .immediate).Legal ∧ ¬ (Instr.mul .position (.illegal 2) .position).Legal ∧
    ¬ (Instr.inp .immediate).Legal ∧ ¬ (Instr.outp (.illegal 9)).Legal ∧ ¬ (Instr.jt (.illegal 3) .position).Legal ∧
    ¬ (Instr.jf .position (.illegal 2)).Legal ∧ ¬ (Instr.lt .position .position .immediate).Legal ∧
    ¬ (Instr.eq .position .position (.illegal 4)).Legal ∧ Instr.hlt.Legal := by decide

/-! ### Decoding, by the digit pattern `C B A O O` of R61 -/

/-- C B A O O = 0 1 1 01 (V-D8). -/
theorem test_decode_add : decodeInstr Params.spec 1101 = .ok (.add .immediate .immediate .position) := by decide

/-- C B A O O = 0 1 0 02 (V-D7). -/
theorem test_decode_mul : decodeInstr Params.spec 1002 = .ok (.mul .position .immediate .position) := by decide

/-- A O O = 0 03; B and C of 11003 are ignored. -/
theorem test_decode_in : decodeInstr Params.spec 3 = .ok (.inp .position) ∧
    decodeInstr Params.spec 11003 = .ok (.inp .position) := by decide

/-- A O O = 1 04 (V-D11). -/
theorem test_decode_out : decodeInstr Params.spec 104 = .ok (.outp .immediate) := by decide

/-- B A O O = 0 1 05. -/
theorem test_decode_jt : decodeInstr Params.spec 105 = .ok (.jt .immediate .position) := by decide

/-- B A O O = 1 0 06. -/
theorem test_decode_jf : decodeInstr Params.spec 1006 = .ok (.jf .position .immediate) := by decide

/-- C B A O O = 0 0 1 07. -/
theorem test_decode_lt : decodeInstr Params.spec 107 = .ok (.lt .immediate .position .position) := by decide

/-- C B A O O = 1 0 0 08 (V-D10): M3 = 1 decodes, and is illegal on use. -/
theorem test_decode_eq : decodeInstr Params.spec 10008 = .ok (.eq .position .position .immediate) := by decide

/-- V-D5, V-D6, V-D16: ignored digits. -/
theorem test_decode_hlt : decodeInstr Params.spec 99 = .ok .hlt ∧ decodeInstr Params.spec 199 = .ok .hlt ∧
    decodeInstr Params.spec 1000099 = .ok .hlt := by decide

/-- V-D14, V-D17. -/
theorem test_decode_fields : decode .fault 123456 = some ⟨56, 4, 3, 2⟩ ∧
    decodeInstr Params.spec 2201 = .ok (.add (.illegal 2) (.illegal 2) .position) := by decide

/-- V-D18, V-D19: the three treatments of a negative word. -/
theorem test_decode_negative : decode .fault (-1) = none ∧ decode .floored (-1) = some ⟨99, 9, 9, 9⟩ ∧
    decode .truncated (-1) = some ⟨1, 0, 0, 0⟩ ∧ decode .floored (-99) = some ⟨1, 9, 9, 9⟩ ∧
    decode .truncated (-99) = some ⟨99, 0, 0, 0⟩ := by decide

/-- V-D1, V-D12, V-D13: opcodes outside the nine. -/
theorem test_decode_illegal_opcode : decodeInstr Params.spec 0 = .error .invalidOpcode ∧
    decodeInstr Params.spec 50 = .error .invalidOpcode ∧ decodeInstr Params.spec 100 = .error .invalidOpcode := by decide

/-- V-C14, V-F8: STRICT_MODES. -/
theorem test_decode_strict : decodeInstr { Params.spec with strictModes := true } 199 = .error .invalidMode ∧
    decodeInstr { Params.spec with strictModes := true } 1104 = .error .invalidMode ∧
    decodeInstr { Params.spec with strictModes := true } 104 = .ok (.outp .immediate) := by decide

/-- Every constructor encodes to the canonical word of R71. -/
theorem test_encode : encode (.add .immediate .immediate .position) = 1101 ∧
    encode (.mul .position .immediate .position) = 1002 ∧ encode (.inp .position) = 3 ∧ encode (.outp .immediate) = 104 ∧
    encode (.jt .immediate .immediate) = 1105 ∧ encode (.jf .position .immediate) = 1006 ∧
    encode (.lt .immediate .position .position) = 107 ∧ encode (.eq .position .position .immediate) = 10008 ∧
    encode .hlt = 99 := by decide

/-! ### Instructions, at most two each -/

/-- V-S1, first instruction. -/
theorem test_add_position : after (fresh [1, 9, 10, 3, 2, 3, 11, 0, 99, 30, 40, 50])
    (fun t => t.mem.lookup 3 == some 70 && t.ip == 4 && t.status == .running) = true := by decide

/-- V-A16: the instruction overwrites its own word and still advances by its fetched width. -/
theorem test_add_own_word : after (fresh [1101, 1, 1, 0, 99])
    (fun t => t.mem == [(0, 2), (1, 1), (2, 1), (3, 0), (4, 99)] && t.ip == 4) = true := by decide

/-- V-A6: no wrap-around. -/
theorem test_mul_big : after (fresh [1102, 1099511627776, 1099511627776, 0, 99])
    (fun t => t.mem.lookup 0 == some 1208925819614629174706176) = true := by decide

/-- V-A7: the target is also an operand. -/
theorem test_mul_alias : after (fresh [2, 3, 0, 3, 99]) (fun t => t.mem.lookup 3 == some 6) = true := by decide

/-- V-A9: signed order, and growth past the extent. -/
theorem test_lt_signed : after (fresh [1107, -5, 3, 7, 99])
    (fun t => t.mem.lookup 7 == some 1 && t.mem.lookup 6 == none) = true := by decide

/-- V-A10: equal operands give 0. -/
theorem test_lt_equal : after (fresh [1107, 4, 4, 0, 99]) (fun t => t.mem.lookup 0 == some 0) = true := by decide

/-- V-A12. -/
theorem test_eq_equal : after (fresh [1108, 8, 8, 5, 99]) (fun t => t.mem.lookup 5 == some 1) = true := by decide

/-- V-A14: unset cells read 0. -/
theorem test_eq_unset : after (fresh [8, 100, 101, 0, 99])
    (fun t => t.mem.lookup 0 == some 1 && t.mem.lookup 100 == none) = true := by decide

/-- V-I1. -/
theorem test_in_takes_the_head : after (freshWith [3, 5, 99] [7, 8])
    (fun t => t.mem.lookup 5 == some 7 && t.inq == [8] && t.ip == 2) = true := by decide

/-- V-I2: nothing but the status changes. -/
theorem test_in_suspends : after (fresh [3, 5, 99])
    (fun t => t == { fresh [3, 5, 99] with status := .suspended .needsInput }) = true := by decide

/-- V-I4. -/
theorem test_out_immediate : after (fresh [104, -3, 99])
    (fun t => t.out == some (-3) && t.ip == 2 && t.status == .suspended .producedOutput) = true := by decide

/-- V-I5. -/
theorem test_out_position : after (fresh [4, 3, 99, 42]) (fun t => t.out == some 42) = true := by decide

/-- V-C5. -/
theorem test_jt_position : after (fresh [5, 3, 4, 1, 6]) (fun t => t.ip == 6) = true := by decide

/-- V-C8, V-C9, V-C10: a taken negative target, one not taken, and an operand resolved though the jump is not taken. -/
theorem test_jt_negative : failsAt (fresh [1105, 1, -4]) .invalidAddress = true ∧
    after (fresh [1105, 0, -4]) (fun t => t.ip == 3 && t.status == .running) = true ∧
    after (fresh [105, 0, -4]) (fun t => t.status == .failed .invalidAddress && t.ip == 0) = true := by decide

/-- V-C3, V-C4. -/
theorem test_jf : after (fresh [1106, 0, 9]) (fun t => t.ip == 9) = true ∧
    after (fresh [1106, 5, 9]) (fun t => t.ip == 3) = true := by decide

/-- V-C11. -/
theorem test_jf_minus_one : after (fresh [1106, -1, 9]) (fun t => t.ip == 3) = true := by decide

/-- V-C7. -/
theorem test_hlt : after (fresh [99]) (fun t => t == { fresh [99] with status := .halted }) = true := by decide

/-! ### Failures -/

/-- V-F1, V-F2, V-A18, V-A19, V-A20, V-A21, V-I6, V-I7: only the status changes. -/
theorem test_failures : failsAt (fresh [50]) .invalidOpcode = true ∧ failsAt (fresh [0]) .invalidOpcode = true ∧
    failsAt (fresh [11101, 1, 1, 0, 99]) .immediateWrite = true ∧ failsAt (fresh [201, 0, 0, 0, 99]) .invalidMode = true ∧
    failsAt (fresh [1, -1, 0, 0, 99]) .invalidAddress = true ∧ failsAt (fresh [1101, 1, 1, -1, 99]) .invalidAddress = true ∧
    failsAt (fresh [103, 5, 99]) .immediateWrite = true ∧ failsAt (fresh [3, -1, 99]) .invalidAddress = true := by decide

/-- V-F4a, V-F4b, V-F4c: the first failure in parameter order. -/
theorem test_failure_order : failsAt (fresh [10001, -1, 0, 0]) .invalidAddress = true ∧
    failsAt (fresh [10201, -1, 0, 0]) .invalidMode = true ∧ failsAt (fresh [21101, -1, 0, 0]) .invalidMode = true := by
  decide

/-- V-M3, V-M8, V-F7: UNSET_READ = fault. -/
theorem test_unset_fault :
    failsAt (newInstance { Params.spec with unsetRead := .fault } [4, 100, 99]) .unsetAddress = true ∧
    failsAt (newInstance { Params.spec with unsetRead := .fault } [1, 3, 4, 0]) .unsetAddress = true ∧
    failsAt (newInstance { Params.spec with unsetRead := .fault } [1, 100, 0, 0, 99]) .unsetAddress = true := by decide

/-- V-F3: a negative word under each treatment. -/
theorem test_negative_word : failsAt (fresh [-1]) .invalidOpcode = true ∧
    after (newInstance { Params.spec with negWord := .floored } [-1]) (fun t => t.status == .halted && t.ip == 0) = true ∧
    after (newInstance { Params.spec with negWord := .truncated } [-1, 5, 6, 0, 99, 3, 4])
      (fun t => t.mem.lookup 0 == some 7 && t.ip == 4) = true := by decide

/-- R104, R163 item 6, with an 8-bit word: 127 fits, 128 overflows or wraps. -/
theorem test_overflow :
    after (newInstance { Params.spec with wordBits := some 8 } [1101, 126, 1, 0]) (fun t => t.mem.lookup 0 == some 127) = true ∧
    failsAt (newInstance { Params.spec with wordBits := some 8 } [1101, 127, 1, 0]) .overflow = true ∧
    after (newInstance { Params.spec with wordBits := some 8, overflow := .wrap } [1101, 127, 1, 0])
      (fun t => t.mem.lookup 0 == some (-128)) = true := by decide

/-- R42, R43 with a finite MEM_LIMIT: the last address is usable, the next one is not. -/
theorem test_mem_limit :
    after (newInstance { Params.spec with memLimit := some 9 } [1101, 1, 1, 8]) (fun t => t.mem.lookup 8 == some 2) = true ∧
    failsAt (newInstance { Params.spec with memLimit := some 9 } [1101, 1, 1, 9]) .invalidAddress = true := by decide

/-! ### Host operations and host software -/

/-- V-H6. -/
theorem test_load_program : loadProgram { freshWith [3, 5, 99] [1] with ip := 7, out := some 4, status := .halted } [104, 9, 99]
    = fresh [104, 9, 99] := by decide

/-- V-I2, V-I3, V-I9: a call on a starved instance suspends again; after a push it completes. -/
theorem test_run_until_suspend :
    (runUntilSuspend 5 (fresh [3, 5, 99])).map State.status = some (.suspended .needsInput) ∧
    (runUntilSuspend 5 (freshWith [3, 5, 99] [9])).map State.status = some .halted ∧
    runUntilSuspend 3 (fresh [1105, 1, 0]) = none := by decide

/-- V-M9. -/
theorem test_read_memory : readMemory (fresh [3500, 9]) 0 = .ok 3500 ∧ readMemory (fresh [3500, 9]) 12 = .ok 0 ∧
    readMemory (fresh [3500, 9]) (-1) = .error .invalidAddress := by decide

/-- V-H2, and two rows of V-H3: a sign, white space, an empty item, a trailing comma. -/
theorem test_parse : parseProgram [' ', '1', ',', ' ', '-', '2', ' ', ',', '+', '3', ' '] = some [1, -2, 3] ∧
    parseProgram ['1', ',', ',', '2'] = none ∧ parseProgram ['1', ','] = none ∧ parseProgram [] = none ∧
    parseProgram ['1', '.', '5'] = none := by decide

/-- R145: lexicographic order. -/
theorem test_permutations : permutations [0, 1, 2] =
    [[0, 1, 2], [0, 2, 1], [1, 0, 2], [1, 2, 0], [2, 0, 1], [2, 1, 0]] := by decide

/-- The placed instruction is the one the next step runs. -/
theorem test_with_fetch_word :
    step (State.reset.withFetchWord 8 104) =
      exec (.outp .immediate) { State.reset.withFetchWord 8 104 with status := .running } := rfl

/-! ### Witnesses: states and operands that meet the hypotheses of each obligation -/

/-- The instance of the three-cell witnesses: ADD with operand 1 in position mode (30 at cell 9), operand 2 immediate (10), and
target 3. -/
def threeCellState : State := fresh [1001, 9, 10, 3, 99, 0, 0, 0, 0, 30]

theorem witness_operands : OperandIs threeCellState 1 .position 30 ∧ OperandIs threeCellState 2 .immediate 10 ∧
    TargetIs threeCellState 3 .position 3 ∧ ¬ BadAddress threeCellState ((3 : Nat) : Int) ∧
    inWordRange threeCellState.cfg (30 + 10) = true ∧ threeCellState.cfg.wordBits = none :=
  ⟨resolveRead_eq_ok.mp (by decide), resolveRead_eq_ok.mp (by decide), ⟨rfl, memRead_eq_ok.mp (by decide)⟩,
    by rw [badAddress_iff]; decide, by decide, rfl⟩

/-- FiniteWordResultsThatFitAreExact, at the greatest value of an 8-bit word, and with a target cut off by MEM_LIMIT. -/
theorem witness_finite_word_fits :
    OperandIs (newInstance { Params.spec with wordBits := some 8, memLimit := some 4 } [1101, 126, 1, 3]) 1 .immediate 126 ∧
    OperandIs (newInstance { Params.spec with wordBits := some 8, memLimit := some 4 } [1101, 126, 1, 3]) 2 .immediate 1 ∧
    TargetIs (newInstance { Params.spec with wordBits := some 8, memLimit := some 4 } [1101, 126, 1, 3]) 3 .position 3 ∧
    ¬ BadAddress (newInstance { Params.spec with wordBits := some 8, memLimit := some 4 } [1101, 126, 1, 3]) ((3 : Nat) : Int) ∧
    TargetIs (newInstance { Params.spec with wordBits := some 8, memLimit := some 4 } [1101, 126, 1, 4]) 3 .position 4 ∧
    BadAddress (newInstance { Params.spec with wordBits := some 8, memLimit := some 4 } [1101, 126, 1, 4]) ((4 : Nat) : Int) ∧
    inWordRange { Params.spec with wordBits := some 8, memLimit := some 4 } (126 + 1) = true :=
  ⟨resolveRead_eq_ok.mp (by decide), resolveRead_eq_ok.mp (by decide), ⟨rfl, memRead_eq_ok.mp (by decide)⟩,
    by rw [badAddress_iff]; decide, ⟨rfl, memRead_eq_ok.mp (by decide)⟩, by rw [badAddress_iff]; decide, rfl⟩

/-- AddMeaning, MulMeaning, LessThanMeaning, EqualsMeaning: the failure clauses, each at its own parameter, and the clause of a
target cut off by MEM_LIMIT at the limit itself. -/
theorem witness_three_cell_failures :
    OperandFails (fresh [1, -1, 0, 0]) 1 .position .invalidAddress ∧
    (OperandIs (fresh [201, 7, 0, 0]) 1 .immediate 7 ∧ OperandFails (fresh [201, 7, 0, 0]) 2 (.illegal 2) .invalidMode) ∧
    TargetFails (fresh [11101, 1, 1, 0]) 3 .immediate .immediateWrite ∧
    BadAddress (newInstance { Params.spec with memLimit := some 9 } [1101, 1, 1, 9]) ((9 : Nat) : Int) :=
  ⟨resolveRead_eq_error.mp (by decide), ⟨resolveRead_eq_ok.mp (by decide), resolveRead_eq_error.mp (by decide)⟩,
    resolveWrite_eq_error.mp (by decide), by rw [badAddress_iff]; decide⟩

theorem witness_mul_completes : exec (.mul .position .immediate .position) threeCellState =
    .next { threeCellState with mem := threeCellState.mem.insert 3 300, ip := 4 } := rfl

theorem witness_less_than_completes : exec (.lt .position .immediate .position) threeCellState =
    .next { threeCellState with mem := threeCellState.mem.insert 3 0, ip := 4 } := rfl

theorem witness_equals_completes : exec (.eq .position .immediate .position) threeCellState =
    .next { threeCellState with mem := threeCellState.mem.insert 3 0, ip := 4 } := rfl

/-- OverflowFollowsItsPolicy, both policies. -/
theorem witness_overflow (p : OverflowPolicy) :
    OperandIs (newInstance { Params.spec with wordBits := some 8, overflow := p } [1101, 127, 1, 0]) 1 .immediate 127 ∧
    OperandIs (newInstance { Params.spec with wordBits := some 8, overflow := p } [1101, 127, 1, 0]) 2 .immediate 1 ∧
    TargetIs (newInstance { Params.spec with wordBits := some 8, overflow := p } [1101, 127, 1, 0]) 3 .position 0 ∧
    ¬ BadAddress (newInstance { Params.spec with wordBits := some 8, overflow := p } [1101, 127, 1, 0]) ((0 : Nat) : Int) ∧
    inWordRange { Params.spec with wordBits := some 8, overflow := p } (127 + 1) = false := by
  cases p <;>
    exact ⟨resolveRead_eq_ok.mp (by decide), resolveRead_eq_ok.mp (by decide), ⟨rfl, memRead_eq_ok.mp (by decide)⟩,
      by rw [badAddress_iff]; decide, by decide⟩

/-- InputMeaning: a target with an empty queue, with a value queued, cut off by MEM_LIMIT, a bad parameter, and a suspended
instance that is resumed. -/
theorem witness_input :
    TargetIs (fresh [3, 5, 99]) 1 .position 5 ∧ (fresh [3, 5, 99]).inq = [] ∧
    TargetIs (freshWith [3, 5, 99] [7]) 1 .position 5 ∧ (freshWith [3, 5, 99] [7]).inq = [7] ∧
    ¬ BadAddress (freshWith [3, 5, 99] [7]) ((5 : Nat) : Int) ∧
    BadAddress (newInstance { Params.spec with memLimit := some 5 } [3, 5, 99]) ((5 : Nat) : Int) ∧
    TargetFails (fresh [3, -1, 99]) 1 .position .invalidAddress ∧
    fetchDecode { fresh [3, 5, 99] with status := .suspended .needsInput } = .ok (.inp .position) :=
  ⟨⟨rfl, memRead_eq_ok.mp (by decide)⟩, rfl, ⟨rfl, memRead_eq_ok.mp (by decide)⟩, rfl,
    by rw [badAddress_iff]; decide, by rw [badAddress_iff]; decide, resolveWrite_eq_error.mp (by decide), by decide⟩

/-- A suspended instance at its input instruction, waiting in vain and with a value pushed. -/
def waiting (inputs : List Int) : State := { freshWith [3, 5, 99] inputs with status := .suspended .needsInput }

/-- InputMeaning, the clauses of the retry. -/
theorem witness_input_retry (inputs : List Int) : (waiting inputs).status = .suspended .needsInput ∧
    fetchDecode (waiting inputs) = .ok (.inp .position) ∧ TargetIs (waiting inputs) 1 .position 5 ∧
    ¬ BadAddress (waiting inputs) ((5 : Nat) : Int) ∧ (waiting inputs).inq = inputs :=
  ⟨rfl, rfl, ⟨rfl, memRead_eq_ok.mp rfl⟩,
    by rw [badAddress_iff]; simp [waiting, freshWith, fresh, newInstance, Params.spec, beyondLimit], rfl⟩

/-- OutputMeaning: an operand, and a parameter that fails. -/
theorem witness_output : OperandIs (fresh [4, 3, 99, 42]) 1 .position 42 ∧
    OperandFails (fresh [204, 3, 99]) 1 (.illegal 2) .invalidMode :=
  ⟨resolveRead_eq_ok.mp (by decide), resolveRead_eq_error.mp (by decide)⟩

/-- JumpIfTrueMeaning, JumpIfFalseMeaning: a condition of each truth with a target at 0, the least one, and at -1. -/
theorem witness_jump : OperandIs (fresh [1105, 1, 0]) 1 .immediate 1 ∧ OperandIs (fresh [1105, 1, 0]) 2 .immediate 0 ∧
    OperandIs (fresh [1105, 0, -1]) 1 .immediate 0 ∧ OperandIs (fresh [1105, 0, -1]) 2 .immediate (-1) ∧
    OperandFails (fresh [205, 0, 0]) 1 (.illegal 2) .invalidMode ∧ OperandFails (fresh [105, 0, -4]) 2 .position .invalidAddress :=
  ⟨resolveRead_eq_ok.mp (by decide), resolveRead_eq_ok.mp (by decide), resolveRead_eq_ok.mp (by decide),
    resolveRead_eq_ok.mp (by decide), resolveRead_eq_error.mp (by decide), resolveRead_eq_error.mp (by decide)⟩

/-- JT with a taken jump to -1, and a condition that resolves beside a target that does not. -/
theorem witness_jump_failures :
    (OperandIs (fresh [1105, 1, -1]) 1 .immediate 1 ∧ OperandIs (fresh [1105, 1, -1]) 2 .immediate (-1)) ∧
    OperandIs (fresh [105, 0, -4]) 1 .immediate 0 ∧ OperandFails (fresh [105, 0, -4]) 2 .position .invalidAddress :=
  ⟨⟨resolveRead_eq_ok.mp (by decide), resolveRead_eq_ok.mp (by decide)⟩, resolveRead_eq_ok.mp (by decide),
    resolveRead_eq_error.mp (by decide)⟩

theorem witness_halted : ({ fresh [99] with status := .halted } : State).status = .halted := rfl

/-- The round trip, canonical words, used digits and strict modes: a well-formed instruction and words that are not negative. -/
theorem witness_encoding : (Instr.add .immediate .immediate .position).WellFormed ∧
    (Instr.jt (.illegal 9) .immediate).WellFormed ∧ (0 : Int) ≤ 201101 ∧
    decodeInstr Params.spec 201101 = .ok (.add .immediate .immediate .position) ∧ (201101 : Int) % 10 ^ 5 = 1101 ∧
    decodeInstr { Params.spec with strictModes := true } 1101 = .ok (.add .immediate .immediate .position) := by decide

theorem witness_canonical_fields : (99 : Nat) ≤ 99 ∧ (9 : Nat) ≤ 9 ∧
    decode .truncated ((99 + 100 * 9 + 1000 * 9 + 10000 * 9 : Nat) : Int) = some ⟨99, 9, 9, 9⟩ := by decide

/-- WordDecodesByItsUsedDigits below zero (V-D19): under floored -99 is add with three illegal modes, whose canonical word is 99901;
under truncated it is halt. -/
theorem witness_encoding_negative : (Instr.add (.illegal 9) (.illegal 9) (.illegal 9)).WellFormed ∧
    decodeInstr { Params.spec with negWord := .floored } (-99) = .ok (.add (.illegal 9) (.illegal 9) (.illegal 9)) ∧
    (-99 : Int) % 10 ^ 5 = 99901 ∧ encode (.add (.illegal 9) (.illegal 9) (.illegal 9)) = 99901 ∧
    decodeInstr { Params.spec with negWord := .truncated } (-99) = .ok .hlt ∧ (- -99 : Int) % 10 ^ 2 = 99 ∧
    decodeInstr Params.spec (-99) = .error .invalidOpcode := by decide

/-- DecoderFieldsOfEveryWord: the least word that is not negative and the greatest negative one. -/
theorem witness_decoder_signs : (-1 : Int) < 0 ∧ (0 : Int) ≤ 0 := by decide

/-- MemReadAnswersTheCell and ReadMemoryReportsTheCell: -1, the limit, the address below it, an unset cell under each
UNSET_READ. -/
theorem witness_mem_read :
    memRead (fresh [7]) (-1) = .error .invalidAddress ∧
    memRead (newInstance { Params.spec with memLimit := some 1 } [7]) 1 = .error .invalidAddress ∧
    memRead (newInstance { Params.spec with memLimit := some 1 } [7]) 0 = .ok 7 ∧ memRead (fresh [7]) 1 = .ok 0 ∧
    memRead (newInstance { Params.spec with unsetRead := .fault } [7]) 1 = .error .unsetAddress ∧
    readMemory (newInstance { Params.spec with unsetRead := .fault } [7]) 1 = .error .unsetAddress := by decide

/-- MemWriteSetsOneCell: the limit and the address below it. -/
theorem witness_mem_write :
    memWrite (newInstance { Params.spec with memLimit := some 2 } [7]) 2 5 = .error .invalidAddress ∧
    memWrite (newInstance { Params.spec with memLimit := some 2 } [7]) 1 5 =
      .ok { newInstance { Params.spec with memLimit := some 2 } [7] with mem := [(0, 7), (1, 5)] } := by decide

/-- Every statement about a step of an instance that is not terminal, with an invariant: the memory is canonical, the words fit,
the step answers and the memory grows by the written cell. -/
theorem witness_step : (fresh [1101, 2, 3, 1000, 99]).status.terminal = false ∧ (fresh [1101, 2, 3, 1000, 99]).Inv ∧
    (fresh [1101, 2, 3, 1000, 99]).WordsFit ∧
    step (fresh [1101, 2, 3, 1000, 99]) =
      .next { fresh [1101, 2, 3, 1000, 99] with mem := Memory.insert (fresh [1101, 2, 3, 1000, 99]).mem 1000 5, ip := 4,
                                                status := .running } ∧
    (fresh [1101, 2, 3, 1000, 99]).mem.lookup 1000 = none :=
  ⟨by decide, newInstance_mem_wf _ _, ⟨fun _ _ _ => rfl, fun _ _ => rfl, fun _ _ => rfl⟩, rfl, by decide⟩

/-- StepKeepsTheWordRange with a finite word: two bits hold a comparison's 1. -/
theorem witness_finite_word_range : (newInstance { Params.spec with wordBits := some 2 } []).WordsFit :=
  ⟨fun a v h => by simp [newInstance, Memory.image] at h, fun _ h => by simp [newInstance, State.reset] at h,
    fun _ h => by simp [newInstance, State.reset] at h⟩

/-- StepRunsTheDecodedInstruction. -/
theorem witness_decoded_step : Holds (fresh [1101, 1, 1, 0]) ((fresh [1101, 1, 1, 0]).ip : Int) 1101 ∧
    decodeInstr (fresh [1101, 1, 1, 0]).cfg 1101 = .ok (.add .immediate .immediate .position) :=
  ⟨memRead_eq_ok.mp (by decide), by decide⟩

/-- StepFailsBeforeDispatch, clause by clause: an unset fetch, a negative word, opcode 9 and opcode 98, a strict word. -/
theorem witness_before_dispatch :
    CellFails (newInstance { Params.spec with unsetRead := .fault } []) 0 .unsetAddress ∧ Holds (fresh [-1]) 0 (-1) ∧
    Holds (fresh [9]) 0 9 ∧ Holds (fresh [98]) 0 98 ∧
    Holds (newInstance { Params.spec with strictModes := true } [199]) 0 199 ∧
    decodeInstr { Params.spec with strictModes := true } 199 = .error .invalidMode :=
  ⟨memRead_eq_error.mp (by decide), memRead_eq_ok.mp (by decide), memRead_eq_ok.mp (by decide),
    memRead_eq_ok.mp (by decide), memRead_eq_ok.mp (by decide), by decide⟩

/-- StepFailsBeforeDispatch below zero: an opcode outside the nine under each treatment (-50 gives 50 both ways), and a legal
opcode under STRICT_MODES: -1 floored is opcode 99, -199 truncated is the word 199. -/
theorem witness_before_dispatch_negative : Holds (fresh [-50]) 0 (-50) ∧
    decode .floored (-50) = some ⟨50, 9, 9, 9⟩ ∧ decode .truncated (-50) = some ⟨50, 0, 0, 0⟩ ∧
    decode .floored (-1) = some ⟨99, 9, 9, 9⟩ ∧ decode .truncated (-199) = some ⟨99, 1, 0, 0⟩ ∧
    failsAt (newInstance { Params.spec with negWord := .floored } [-50]) .invalidOpcode = true ∧
    failsAt (newInstance { Params.spec with negWord := .truncated } [-50]) .invalidOpcode = true ∧
    failsAt (newInstance { Params.spec with negWord := .truncated, strictModes := true } [-199]) .invalidMode = true :=
  ⟨memRead_eq_ok.mp (by decide), by decide⟩

/-- The strict clause's own hypothesis: no well-formed instruction has the canonical word 199. -/
theorem witness_no_canonical_199 (i : Instr) (hi : i.WellFormed) : (199 : Int) ≠ encode i := by
  intro h
  rw [Instr.wellFormed_iff] at hi
  cases i <;> simp [encode, Instr.modes, Instr.opcode] at h hi <;> omega

/-- FailureChangesOnlyTheStatus. -/
theorem witness_failure : (fresh [50]).status.terminal = false ∧
    step (fresh [50]) = .next { fresh [50] with status := .failed .invalidOpcode } := ⟨rfl, rfl⟩

/-- PointerAfterEveryInstruction: a Running state, and an instruction that does not fail. -/
theorem witness_pointer : ({ fresh [1101, 1, 1, 0] with status := .running } : State).status = .running ∧
    exec (.add .immediate .immediate .position) { fresh [1101, 1, 1, 0] with status := .running } =
      .next { fresh [1101, 1, 1, 0] with status := .running, mem := [(0, 2), (1, 1), (2, 1), (3, 0)], ip := 4 } :=
  ⟨rfl, rfl⟩

/-- The frames: a step of each shape answers a next state. -/
theorem witness_frames :
    exec (.inp .position) (freshWith [3, 5] [7]) =
      .next { freshWith [3, 5] [] with mem := [(0, 3), (1, 5), (5, 7)], ip := 2 } ∧
    exec (.outp .immediate) (fresh [104, 9]) =
      .next { fresh [104, 9] with out := some 9, ip := 2, status := .suspended .producedOutput } ∧
    exec (.jt .immediate .immediate) (fresh [1105, 1, 7]) = .next { fresh [1105, 1, 7] with ip := 7 } ∧
    exec (.jf .immediate .immediate) (fresh [1106, 1, 7]) = .next { fresh [1106, 1, 7] with ip := 3 } ∧
    exec .hlt (fresh [99]) = .next { fresh [99] with status := .halted } := ⟨rfl, rfl, rfl, rfl, rfl⟩

/-- InstructionReadsOnlyItsCells: a memory that differs in a cell the instruction does not read. -/
theorem witness_other_memory : ∀ a, ReadsCell (.outp .immediate) (fresh [104, 9]) a →
    Memory.lookup [(0, 104), (1, 9), (50, 1)] a = (fresh [104, 9]).mem.lookup a := by
  rintro a (⟨_, h⟩ | ⟨k, h, _⟩)
  · have h : a < 2 := h
    interval_cases a <;> rfl
  · simp [readParams] at h

/-- IllegalEncodingsFail, both clauses. -/
theorem witness_illegal : ¬ (Instr.inp .immediate).Legal ∧ (Instr.inp .position).Legal ∧
    ({ fresh [3, 5] with status := .running } : State).status = .running := by decide

/-- UnsetCellsActAsZero: two memories that differ, one with a cell holding 0 in the domain and one without it. -/
theorem witness_same_cells : (fresh [104, 0]).cfg.unsetRead = .zero ∧
    SameCells (fresh [104, 0]) { fresh [104, 0] with mem := [(0, 104)] } ∧
    (fresh [104, 0]).mem ≠ [(0, 104)] := by
  refine ⟨rfl, ⟨rfl, rfl, rfl, rfl, rfl, fun a => ?_⟩, by decide⟩
  rcases a with _ | _ | a <;> simp [fresh, newInstance, Memory.image, Memory.lookup]

/-- The used digits of the instructions that ignore some: the words of R69 and their neighbours. -/
theorem witness_used_digits : Instr.hlt.WellFormed ∧ (Instr.inp .position).WellFormed ∧ (0 : Int) ≤ 100099 ∧
    decodeInstr Params.spec 100099 = .ok .hlt ∧ (100099 : Int) % 10 ^ 2 = 99 ∧
    decodeInstr Params.spec 98 ≠ .ok .hlt ∧ Params.spec.strictModes = false := by decide

/-- WrittenCodeIsFetchedNext: a target that is the next instruction's word (V-A17). -/
theorem witness_next_word : TargetIs (fresh [1101, 98, 1, 4, 0]) 3 .position 4 ∧
    OperandIs (fresh [1101, 98, 1, 4, 0]) 1 .immediate 98 ∧ OperandIs (fresh [1101, 98, 1, 4, 0]) 2 .immediate 1 :=
  ⟨⟨rfl, memRead_eq_ok.mp (by decide)⟩, resolveRead_eq_ok.mp (by decide), resolveRead_eq_ok.mp (by decide)⟩

/-- TerminalInstancesExecuteNothing, PushInputAppends. -/
theorem witness_terminal : ({ fresh [99] with status := .failed .invalidMode } : State).status = .failed .invalidMode ∧
    (fresh [99]).cfg.queueDepth = none := by decide

/-- RunIsRepeatedStep, RunResultNeedsNoMoreFuel: a call of three steps. -/
theorem witness_run : (runUntilSuspend 3 (fresh [1101, 0, 0, 9, 1101, 0, 0, 9, 99])).map State.status = some .halted := by
  decide

/-- HostOperationsKeepTheInvariant: a sequence of the three operations that answers a state. -/
theorem witness_host_ops : (applyHostOps State.reset [.load [3, 5, 99], .push 4, .run 3]).map State.status = some .halted := by
  decide

/-- ResetGivesEveryFieldItsValue: both ways. -/
theorem witness_reset : (newInstance Params.spec [1, 2]).cfg = Params.spec ∧
    (loadProgram (fresh [5]) [1, 2]).cfg = (fresh [5]).cfg := by decide

theorem witness_status_register : Status.ofReg 0x0D = some (.failed .invalidOpcode) ∧ Status.ofReg 0x06 = none := by decide

theorem witness_parse : parseProgram ['1', ',', '2'] = some [1, 2] := by decide

theorem witness_patch : 2 < [(1 : Int), 0, 0, 3].length := by decide

theorem witness_ascending : nonFeedbackPhases.Pairwise (· < ·) ∧ feedbackPhases.Pairwise (· < ·) := by decide

/-- SearchReportsTheFirstMaximum: a tie goes to the first permutation; and a search in which all fail. -/
theorem witness_search : search (fun l => .signal (l.headD 0 * 0)) [1, 2] = .best 0 [1, 2] ∧
    search (fun _ => .failed) [1, 2] = .none ∧
    search (fun l => if l = [2, 1] then .notYet else .signal 1) [1, 2] = .notYet := by decide

/-- FailedInstanceFailsTheCandidate (V-S6): an instance that fails at its first call, one that outputs 5 and fails at its second
(opcode 50), given its predecessor's signal 7, and one that outputs 5 and halts. -/
theorem witness_failed_instance : FailsAtCall 1 0 (fresh [50]) ∧
    FailsAtCall 1 1 (freshWith [104, 5, 50] [7]) ∧
    pushAll (some (7 : Int)).toList (fresh [104, 5, 50]) = some (freshWith [104, 5, 50] [7]) ∧
    runStage 2 1 (fresh [104, 5, 99]) = .signal 5 :=
  ⟨⟨{ fresh [50] with status := .failed .invalidOpcode }, .invalidOpcode, rfl, rfl⟩,
    ⟨{ freshWith [104, 5, 50] [7] with ip := 2, out := some 5, status := .suspended .producedOutput }, rfl, rfl,
      { freshWith [104, 5, 50] [7] with ip := 2, out := some 5, status := .failed .invalidOpcode }, .invalidOpcode, rfl, rfl⟩,
    rfl, rfl⟩

/-- RingTurnTouchesOnlyTwoInstances: a turn that hands a value on. -/
theorem witness_ring_turn :
    FeedbackRing.step 1 { vms := [fresh [104, 8, 99], fresh [99]], turn := 0, result := none } =
      .go { vms := [{ fresh [104, 8, 99] with ip := 2, out := some 8, status := .suspended .producedOutput },
                    freshWith [99] [8]], turn := 1, result := none } := by decide

/-- PipelineInstancesAreSeeded. -/
theorem witness_pipeline : Params.spec.queueDepth = none := rfl

/-- DisassemblyInvertsAssembly. -/
theorem witness_disassembly : (Instr.outp .immediate).WellFormed ∧ [(9 : Int)].length + 1 = (Instr.outp .immediate).width ∧
    (∀ k, k < (Instr.outp .immediate).width →
      Memory.lookup [(0, 104), (1, 9)] (0 + k) = (encode (.outp .immediate) :: [9])[k]?) ∧
    disassembleLine [(0, 104), (1, 9)] 0 = .ins .OUT [⟨.immediate, .lit 9⟩] := by decide

end Sys2Proof.Tests
end

section
/-! SUPPORT. The fields of a loaded instance (10_state.md R33, 44_host_interface.md R131, R132), and what a push does
(R133). -/

namespace Sys2Proof.Machine

@[simp] theorem newInstance_ip (c : Params) (program : List Int) : (newInstance c program).ip = 0 := rfl
@[simp] theorem newInstance_inq (c : Params) (program : List Int) : (newInstance c program).inq = [] := rfl
@[simp] theorem newInstance_out (c : Params) (program : List Int) : (newInstance c program).out = none := rfl
@[simp] theorem newInstance_status (c : Params) (program : List Int) : (newInstance c program).status = .ready := rfl
@[simp] theorem newInstance_cfg (c : Params) (program : List Int) : (newInstance c program).cfg = c := rfl

/-- The cells of a new instance are the elements of its program, and no other (R33). -/
@[simp] theorem newInstance_lookup (c : Params) (program : List Int) (a : Nat) :
    (newInstance c program).mem.lookup a = program[a]? := by
  simp [newInstance, Memory.lookup_image]

/-- Loading a program makes a new instance of it under the old parameters (R132). -/
theorem loadProgram_eq (s : State) (program : List Int) : loadProgram s program = newInstance s.cfg program := rfl

/-- An accepted push appends its value to the queue and changes nothing else (R133). -/
theorem pushInput_eq_ok {s t : State} {v : Int} :
    pushInput s v = .ok t ↔ queueIsFull s = false ∧ t = { s with inq := s.inq ++ [v] } := by
  unfold pushInput
  cases queueIsFull s <;> simp [eq_comm]

end Sys2Proof.Machine
end

section
/-! SUPPORT. The fields of the STATUS register (10_state.md R27), and that its legal values are exactly the encodings of the
statuses. -/

namespace Sys2Proof.Machine

/-- Bit 7 of the register is reserved and 0 (R27). -/
theorem Status.toReg_getLsbD_seven (st : Status) : st.toReg.getLsbD 7 = false := by
  unfold Status.toReg
  rw [BitVec.getLsbD_append, if_neg (by decide), BitVec.getLsbD_append]
  simp

@[simp] theorem Status.toReg_reason (st : Status) : st.toReg.extractLsb' 3 4 = st.reason := by
  unfold Status.toReg
  rw [BitVec.extractLsb'_append_eq_of_le (by decide)]
  exact BitVec.extractLsb'_append_eq_right

@[simp] theorem Status.toReg_kind (st : Status) : st.toReg.extractLsb' 0 3 = st.kind :=
  BitVec.extractLsb'_append_eq_right

/-- A byte whose reserved bit is 0 is that bit, its REASON and its KIND side by side (R27). -/
theorem statusByte_eq_append {b : BitVec 8} (h : b.getLsbD 7 = false) :
    ((0 : BitVec 1) ++ b.extractLsb' 3 4) ++ b.extractLsb' 0 3 = b := by
  have reserved : b.extractLsb' 7 1 = 0 := by
    ext i hi
    obtain rfl : i = 0 := by omega
    simpa using h
  rw [← reserved, BitVec.extractLsb'_append_extractLsb'_eq_extractLsb' (start₂ := 7) (start₁ := 3) (len₁ := 4) rfl]
  exact BitVec.extractLsb'_append_extractLsb' (w := 5)

/-- A legal STATUS value stands for the one status whose KIND and REASON it holds; its reserved bit is 0 (R27). -/
theorem Status.ofReg_eq_some_iff_fields {b : BitVec 8} {st : Status} :
    Status.ofReg b = some st ↔
      b.getLsbD 7 = false ∧ b.extractLsb' 0 3 = st.kind ∧ b.extractLsb' 3 4 = st.reason := by
  unfold Status.ofReg
  generalize b.extractLsb' 0 3 = k, b.extractLsb' 3 4 = c
  cases b.getLsbD 7 with
  | true => simp
  | false =>
    simp only [Bool.false_eq_true, if_false, true_and]
    revert k c
    cases st with
    | suspended kind => cases kind <;> decide
    | failed r => cases r <;> decide
    | _ => decide

/-- A STATUS value stands for a status exactly when it is that status's register (R27). -/
theorem Status.ofReg_eq_some_iff {b : BitVec 8} {st : Status} : Status.ofReg b = some st ↔ st.toReg = b := by
  rw [Status.ofReg_eq_some_iff_fields]
  constructor
  · rintro ⟨reserved, kind, reason⟩
    rw [Status.toReg, ← kind, ← reason]
    exact statusByte_eq_append reserved
  · rintro rfl
    exact ⟨st.toReg_getLsbD_seven, st.toReg_kind, st.toReg_reason⟩

/-- The register of a Ready instance, which is the one reset leaves (R27, R33). -/
theorem Status.toReg_ready : Status.toReg .ready = 0 := by decide

/-- REASON is 0 exactly outside KIND 5 (R27). -/
theorem Status.reason_eq_zero_iff (st : Status) : st.reason = 0 ↔ st.kind ≠ 5 := by
  cases st with
  | suspended kind => cases kind <;> decide
  | failed r => cases r <;> decide
  | _ => decide

theorem Status.kind_le (st : Status) : st.kind.toNat ≤ 5 := by
  cases st with
  | suspended kind => cases kind <;> decide
  | _ => simp [Status.kind]

theorem Status.reason_le (st : Status) : st.reason.toNat ≤ 6 := by
  cases st with
  | failed r => cases r <;> decide
  | _ => simp [Status.reason]

end Sys2Proof.Machine
end

section
/-! SUPPORT. When an instruction fails and when its handler completed, and the pointer a completed handler leaves
(10_state.md R23). -/

namespace Sys2Proof.Machine

/-- An instruction that ends a Running instance as failed is a failure's entry: only the status changed (60_exceptions.md
R162). -/
theorem exec_eq_raiseFail {i : Instr} {s t : State} {r : FailReason} (hs : s.status = .running)
    (h : exec i s = .next t) (ht : t.status = .failed r) : t = raiseFail r s := by
  obtain ⟨r', rfl⟩ | ⟨_, _, _, _, _, rfl⟩ | ⟨_, _, _, _, _, _, _, _, rfl⟩ | ⟨_, _, _, _, _, rfl⟩ | ⟨_, _, _, _, rfl⟩ |
    ⟨_, _, rfl⟩ | ⟨_, rfl⟩ | ⟨_, rfl⟩ := exec_cases h
  · obtain rfl : r' = r := by simpa using ht
    rfl
  all_goals simp [hs] at ht

/-- A handler's step that leaves no failure is the handler's own completion. -/
theorem eq_ok_of_runHandler {s t : State} {h : Except FailReason State} (hr : runHandler s h = .next t)
    (ht : ∀ r, t.status ≠ .failed r) : h = .ok t := by
  obtain h | ⟨r, _, rfl⟩ := runHandler_eq_next.mp hr
  · exact h
  · exact absurd rfl (ht r)

theorem threeCell_ip {f : Int → Int → Except FailReason Int} {m1 m2 m3 : Mode} {s t : State}
    (h : threeCell f m1 m2 m3 s = .ok t) : t.ip = s.ip + 4 := by
  obtain ⟨_, _, _, _, _, _, _, _, _, rfl⟩ := threeCell_eq_ok.mp h
  rfl

theorem inputCell_ip {m1 : Mode} {s t : State} (h : inputCell m1 s = .ok t) :
    (s.inq ≠ [] → t.ip = s.ip + 2) ∧ (s.inq = [] → t.ip = s.ip ∧ t.status = .suspended .needsInput) := by
  obtain ⟨_, _, ⟨hq, rfl⟩ | ⟨v, vs, hq, _, rfl⟩⟩ := inputCell_eq_ok.mp h <;> simp [hq]

theorem outputCell_ip {m1 : Mode} {s t : State} (h : outputCell m1 s = .ok t) :
    t.ip = s.ip + 2 ∧ t.status = .suspended .producedOutput := by
  obtain ⟨_, _, rfl⟩ := outputCell_eq_ok.mp h
  simp

theorem condJump_ip {taken : Int → Bool} {m1 m2 : Mode} {s t : State} (h : condJump taken m1 m2 s = .ok t) :
    ∃ c d, OperandIs s 1 m1 c ∧ OperandIs s 2 m2 d ∧
      (taken c = true → (t.ip : Int) = d) ∧ (taken c = false → t.ip = s.ip + 3) := by
  obtain ⟨c, d, hc, hd, ⟨htaken, hpos, rfl⟩ | ⟨htaken, rfl⟩⟩ := condJump_eq_ok.mp h
  · exact ⟨c, d, hc, hd, by simp [htaken, hpos]⟩
  · exact ⟨c, d, hc, hd, by simp [htaken]⟩

end Sys2Proof.Machine
end

section
/-! SUPPORT. What one turn of the feedback ring can do when the ring goes on (44_host_interface.md R143), said once. -/

namespace Sys2Proof.Machine

@[simp] theorem FeedbackRing.advanceTurn_vms (r : FeedbackRing) : r.advanceTurn.vms = r.vms := rfl

@[simp] theorem FeedbackRing.advanceTurn_turn (r : FeedbackRing) :
    r.advanceTurn.turn = (r.turn + 1) % r.vms.length := rfl

/-- A hand-off goes on exactly when the next instance takes the value at the tail of its queue (R143). -/
theorem FeedbackRing.handOff_eq_go {r r' : FeedbackRing} {v : Int} :
    r.handOff v = .go r' ↔
      ∃ s, r.vms[(r.turn + 1) % r.vms.length]? = some s ∧ queueIsFull s = false ∧
        r' = FeedbackRing.advanceTurn
          { r with
            vms := r.vms.set ((r.turn + 1) % r.vms.length) { s with inq := s.inq ++ [v] }
            result := if r.turn + 1 = r.vms.length then some v else r.result } := by
  unfold FeedbackRing.handOff
  cases hs : r.vms[(r.turn + 1) % r.vms.length]? with
  | none => simp [hs]
  | some s =>
    cases hf : queueIsFull s <;> simp [hs, hf, pushInput, eq_comm (a := r')]

/-- A turn goes on in three ways (R143): a halted instance is skipped; an instance that waits for input, or that halts and is
not the last, has run; or one that produced a value has run and handed it on. -/
theorem FeedbackRing.step_eq_go {fuel : Nat} {r r' : FeedbackRing} (h : r.step fuel = .go r') :
    ∃ s, r.vms[r.turn]? = some s ∧
      (s.status = .halted ∧ r' = r.advanceTurn ∨
        s.status ≠ .halted ∧ ∃ t, runUntilSuspend fuel s = some t ∧
          ((t.status = .suspended .needsInput ∨ t.status = .halted ∧ r.turn + 1 ≠ r.vms.length) ∧
              r' = FeedbackRing.advanceTurn { r with vms := r.vms.set r.turn t } ∨
            t.status = .suspended .producedOutput ∧ ∃ v, t.out = some v ∧
              FeedbackRing.handOff { r with vms := r.vms.set r.turn t } v = .go r')) := by
  unfold FeedbackRing.step at h
  cases hs : r.vms[r.turn]? with
  | none => simp [hs] at h
  | some s =>
    refine ⟨s, rfl, ?_⟩
    by_cases hhalt : s.status = .halted
    · exact .inl ⟨hhalt, by simpa [hs, hhalt, eq_comm] using h⟩
    refine .inr ⟨hhalt, ?_⟩
    cases hrun : runUntilSuspend fuel s with
    | none => simp [hs, hhalt, hrun] at h
    | some t =>
      refine ⟨t, rfl, ?_⟩
      simp only [hs, hhalt, hrun, if_false] at h
      cases hst : t.status with
      | ready => simp [hst] at h
      | running => simp [hst] at h
      | failed _ => simp [hst] at h
      | halted =>
        by_cases hlast : r.turn + 1 = r.vms.length
        · cases hres : r.result <;> simp [hst, hlast, hres] at h
        · exact .inl ⟨.inr ⟨rfl, hlast⟩, by simpa [hst, hlast, eq_comm] using h⟩
      | suspended kind =>
        cases kind with
        | needsInput => exact .inl ⟨.inl rfl, by simpa [hst, eq_comm] using h⟩
        | producedOutput =>
          cases hout : t.out with
          | none => simp [hst, lastOutput, hout] at h
          | some v => exact .inr ⟨rfl, v, rfl, by simpa [hst, lastOutput, hout] using h⟩

end Sys2Proof.Machine
end

section
/-! PROOFS. The obligations of the state family (10_state.md). -/

namespace Sys2Proof.Machine

/-- Settles O13. -/
theorem resetMeetsTheInvariant : Obligations.ResetMeetsTheInvariant := State.reset_mem_wf

/-- Settles O16: a load is a new instance under the old parameters, so both ways come down to one. -/
theorem resetGivesEveryFieldItsValue : Obligations.ResetGivesEveryFieldItsValue := by
  unfold Obligations.ResetGivesEveryFieldItsValue
  intro c program old t h
  obtain ⟨c', rfl⟩ : ∃ c', t = newInstance c' program := by
    obtain ⟨rfl, _⟩ | ⟨rfl, _⟩ := h
    · exact ⟨c, rfl⟩
    · exact ⟨old.cfg, loadProgram_eq old program⟩
  exact ⟨newInstance_ip c' program, newInstance_lookup c' program, newInstance_inq c' program,
    newInstance_out c' program, newInstance_status c' program, Status.toReg_ready⟩

/-- Settles O46: the register's legal values are exactly the statuses' own, and its fields are those of R27. -/
theorem statusRegisterIsExact : Obligations.StatusRegisterIsExact := by
  unfold Obligations.StatusRegisterIsExact
  refine ⟨fun st => Status.ofReg_eq_some_iff.mpr rfl, fun b st => Status.ofReg_eq_some_iff.mp, fun st => ?_,
    fun c program old => ⟨Status.toReg_ready, Status.toReg_ready⟩, fun s t v h => ?_, ?_⟩
  · exact ⟨st.toReg_getLsbD_seven, st.toReg_kind, st.toReg_reason, st.reason_eq_zero_iff, st.kind_le, st.reason_le⟩
  · obtain ⟨_, rfl⟩ := pushInput_eq_ok.mp h
    rfl
  · decide

/-- Settles O30, from everything one instruction can do: of its ways to end, only that of OUT sets the last output and only
that of IN with a value pops the queue. -/
theorem outputAndQueueChangeOnlyByTheirInstruction : Obligations.OutputAndQueueChangeOnlyByTheirInstruction := by
  unfold Obligations.OutputAndQueueChangeOnlyByTheirInstruction
  intro i s t h
  obtain ⟨_, rfl⟩ | ⟨_, _, _, _, _, rfl⟩ | ⟨m, o, v, vs, hi, ho, _, hq, rfl⟩ | ⟨_, _, _, _, _, rfl⟩ | ⟨m, v, hi, hv, rfl⟩ |
    ⟨_, _, rfl⟩ | ⟨_, rfl⟩ | ⟨_, rfl⟩ := exec_cases h
  case inr.inr.inl =>
    exact ⟨.inl rfl, .inr ⟨m, v, o, hi, by simp [hq], ho, by simp⟩, rfl⟩
  case inr.inr.inr.inr.inl =>
    exact ⟨.inr ⟨m, v, hi, hv, rfl⟩, .inl rfl, rfl⟩
  all_goals exact ⟨.inl rfl, .inl rfl, rfl⟩

/-- Settles O39: a failure is its entry alone, which leaves the pointer; otherwise the instruction's handler completed, and
the pointer is the one that handler leaves. -/
theorem pointerAfterEveryInstruction : Obligations.PointerAfterEveryInstruction := by
  unfold Obligations.PointerAfterEveryInstruction
  refine ⟨fun i s t hs h => ⟨fun r hr => ?_, fun hn => ?_⟩, fun s t v h => ?_⟩
  · rw [exec_eq_raiseFail hs h hr, raiseFail_ip]
  · cases i with
    | add | mul | lt | eq => exact threeCell_ip (eq_ok_of_runHandler h hn)
    | inp => exact inputCell_ip (eq_ok_of_runHandler h hn)
    | outp => exact outputCell_ip (eq_ok_of_runHandler h hn)
    | jt | jf => simpa using condJump_ip (eq_ok_of_runHandler h hn)
    | hlt =>
      have h : Except.ok (halt s) = .ok t := eq_ok_of_runHandler (s := s) h hn
      obtain rfl : halt s = t := by simpa using h
      rfl
  · obtain ⟨_, rfl⟩ := pushInput_eq_ok.mp h
    rfl

/-- Settles O53, from the three ways a turn goes on: the current instance's place is set, and at most one value goes to the
next one's queue. -/
theorem ringTurnTouchesOnlyTwoInstances : Obligations.RingTurnTouchesOnlyTwoInstances := by
  unfold Obligations.RingTurnTouchesOnlyTwoInstances
  intro fuel r r' h
  obtain ⟨s, hs, ⟨_, rfl⟩ | ⟨_, t, _, ⟨_, rfl⟩ | ⟨_, v, hv, hgo⟩⟩⟩ := FeedbackRing.step_eq_go h
  · exact ⟨rfl, rfl, fun _ _ _ => rfl, fun _ => .inl rfl⟩
  · refine ⟨by simp, by simp, fun j hj _ => ?_, fun hne => .inl ?_⟩
    · simp [List.getElem?_set_ne hj.symm]
    · simp [List.getElem?_set_ne hne.symm]
  · obtain ⟨u, hu, _, rfl⟩ := FeedbackRing.handOff_eq_go.mp hgo
    simp only [List.length_set] at hu
    have hcur : r.turn < r.vms.length := (List.getElem?_eq_some_iff.mp hs).1
    have hnext : (r.turn + 1) % r.vms.length < r.vms.length := Nat.mod_lt _ (by omega)
    refine ⟨by simp, by simp, fun j hj hj' => ?_, fun hne => .inr ⟨u, t, v, ?_, ?_, hv, ?_⟩⟩
    · simp [List.getElem?_set_ne hj.symm, List.getElem?_set_ne hj'.symm]
    · rwa [List.getElem?_set_ne hne.symm] at hu
    · simp [List.getElem_set_ne hne, hcur]
    · simp [hnext]

end Sys2Proof.Machine
end

section
/-! SUPPORT. What one instruction and one step can do to the memory, the parameters and the status (20_memory.md R41, R48;
40_decode_and_step.md R86, R91). -/

namespace Sys2Proof.Machine

/-- An instruction leaves the memory alone or stores one value in the cell its write parameter names (R48). -/
theorem exec_mem_cases {i : Instr} {s t : State} (h : exec i s = .next t) :
    t.mem = s.mem ∨ ∃ o v, WritesCell i s o ∧ t.mem = s.mem.insert o v := by
  obtain ⟨_, rfl⟩ | ⟨o, v, ho, _, _, rfl⟩ | ⟨m, o, v, _, rfl, ho, _, _, rfl⟩ | ⟨_, _, _, _, _, rfl⟩ | ⟨_, _, _, _, rfl⟩ |
    ⟨_, _, rfl⟩ | ⟨_, rfl⟩ | ⟨_, rfl⟩ := exec_cases h
  case inr.inl => exact .inr ⟨o, v, ho, rfl⟩
  case inr.inr.inl => exact .inr ⟨o, v, ⟨1, m, rfl, ho⟩, rfl⟩
  all_goals exact .inl rfl

/-- A cell the instruction's write parameter does not name reads as before (R48). -/
theorem exec_lookup_of_not_writes {i : Instr} {s t : State} {a : Nat} (h : exec i s = .next t) (ha : ¬ WritesCell i s a) :
    t.mem.lookup a = s.mem.lookup a := by
  obtain hm | ⟨o, v, ho, hm⟩ := exec_mem_cases h
  · rw [hm]
  · have hne : a ≠ o := fun hao => ha (hao ▸ ho)
    rw [hm, Memory.lookup_insert_of_ne _ _ hne]

/-- An instruction without a write parameter leaves the memory alone. -/
theorem exec_mem_of_writeParam_eq_none {i : Instr} {s t : State} (h : exec i s = .next t) (hi : writeParam i = none) :
    t.mem = s.mem := by
  obtain hm | ⟨o, v, ⟨k, m, hp, _⟩, _⟩ := exec_mem_cases h
  · exact hm
  · simp [hi] at hp

/-- The target a write parameter resolves to is the cell the instruction writes, so every other address is one it leaves
alone. -/
theorem not_writesCell_of_resolveWrite_ne {i : Instr} {s : State} {k a : Nat} {m : Mode} (hp : writeParam i = some (k, m))
    (h : ∀ o, resolveWrite s k m = .ok o → (a : Int) ≠ o) : ¬ WritesCell i s a := by
  rintro ⟨k', m', hp', ha⟩
  obtain ⟨rfl, rfl⟩ : k = k' ∧ m = m' := by simpa [hp] using hp'
  exact h a (resolveWrite_eq_ok.mpr ⟨a, rfl, ha⟩) rfl

/-- The status after an instruction: as before, a failure's, or that of the one instruction that suspends or halts (10_state.md
R26). -/
theorem exec_status_cases {i : Instr} {s t : State} (h : exec i s = .next t) :
    t.status = s.status ∨ (∃ r, t.status = .failed r) ∨
      (∃ m, i = .inp m ∧ s.inq = [] ∧ t.status = .suspended .needsInput) ∨
      (∃ m, i = .outp m ∧ t.status = .suspended .producedOutput) ∨ (i = .hlt ∧ t.status = .halted) := by
  obtain ⟨r, rfl⟩ | ⟨_, _, _, _, _, rfl⟩ | ⟨_, _, _, _, _, _, _, _, rfl⟩ | ⟨m, _, hi, _, hq, rfl⟩ | ⟨m, _, hi, _, rfl⟩ |
    ⟨_, _, rfl⟩ | ⟨_, rfl⟩ | ⟨hi, rfl⟩ := exec_cases h
  case inl => exact .inr (.inl ⟨r, rfl⟩)
  case inr.inr.inr.inl => exact .inr (.inr (.inl ⟨m, hi, hq, rfl⟩))
  case inr.inr.inr.inr.inl => exact .inr (.inr (.inr (.inl ⟨m, hi, rfl⟩)))
  case inr.inr.inr.inr.inr.inr.inr => exact .inr (.inr (.inr (.inr ⟨hi, rfl⟩)))
  all_goals exact .inl rfl

/-- A step changes nothing at a terminal status, fails before dispatch, or runs the fetched instruction with the status Running
(40_decode_and_step.md R86, R91). -/
theorem step_cases {s t : State} (h : step s = .next t) :
    t = s ∨ (∃ r, t = raiseFail r s) ∨ ∃ i, fetchDecode s = .ok i ∧ exec i (enterRunning s) = .next t := by
  obtain ⟨_, rfl⟩ | ⟨_, h⟩ := step_eq_next.mp h
  · exact .inl rfl
  · obtain ⟨r, _, rfl⟩ | hi := instructionStep_eq_next.mp h
    · exact .inr (.inl ⟨r, rfl⟩)
    · exact .inr (.inr hi)

/-- A step leaves the memory alone or stores one value in the cell the fetched instruction writes (20_memory.md R41). -/
theorem step_mem_cases {s t : State} (h : step s = .next t) :
    t.mem = s.mem ∨ ∃ i o v, fetchDecode s = .ok i ∧ WritesCell i s o ∧ t.mem = s.mem.insert o v := by
  obtain rfl | ⟨r, rfl⟩ | ⟨i, hi, h⟩ := step_cases h
  · exact .inl rfl
  · exact .inl rfl
  · exact (exec_mem_cases h).imp_right fun ⟨o, v, ho, hm⟩ => ⟨i, o, v, hi, ho, hm⟩

/-- A step keeps the parameters (00_scope.md R6). -/
theorem step_cfg {s t : State} (h : step s = .next t) : t.cfg = s.cfg := by
  obtain rfl | ⟨r, rfl⟩ | ⟨i, _, h⟩ := step_cases h
  · rfl
  · rfl
  · obtain ⟨_, _, hcfg⟩ := outputAndQueueChangeOnlyByTheirInstruction i _ _ h
    exact hcfg

end Sys2Proof.Machine
end

section
/-! SUPPORT. Which values are in the word range (20_memory.md R40, 41_arithmetic.md R104), and that every handler stores such
values only. -/

namespace Sys2Proof.Machine

theorem inWordRange_eq_true {c : Params} {v : Int} :
    inWordRange c v = true ↔ ∀ n, c.wordBits = some n → wrapWord n v = v := by
  unfold inWordRange
  cases c.wordBits <;> simp

/-- The value of an unset cell is in every word range. -/
theorem inWordRange_zero (c : Params) : inWordRange c 0 = true :=
  inWordRange_eq_true.mpr fun n _ => by simp [wrapWord]

/-- A word of at least 2 bits holds a comparison's 1. -/
theorem inWordRange_truth {c : Params} (hw : ∀ n, c.wordBits = some n → 2 ≤ n) (b : Bool) :
    inWordRange c (truth b) = true := by
  cases b with
  | false => exact inWordRange_zero c
  | true =>
    refine inWordRange_eq_true.mpr fun n hn => ?_
    have four : 2 ^ 2 ≤ 2 ^ n := Nat.pow_le_pow_right (by decide) (hw n hn)
    simp only [truth, if_true, wrapWord]
    exact Int.bmod_eq_of_le (by omega) (by omega)

/-- An exact result in the word range is the result (R104). -/
theorem narrow_of_inWordRange {c : Params} {v : Int} (h : inWordRange c v = true) : narrow c v = .ok v := by
  unfold narrow
  cases hn : c.wordBits with
  | none => rfl
  | some n => simp [inWordRange_eq_true.mp h n hn]

/-- A result that is not an overflow is in the word range, exact or wrapped (R104). -/
theorem inWordRange_of_narrow {c : Params} {v w : Int} (h : narrow c v = .ok w) : inWordRange c w = true := by
  refine inWordRange_eq_true.mpr fun n hn => ?_
  by_cases hv : wrapWord n v = v
  · obtain rfl : v = w := by simpa [narrow, hn, hv] using h
    exact hv
  · cases ho : c.overflow with
    | fault => simp [narrow, hn, hv, ho] at h
    | wrap =>
      obtain rfl : wrapWord n v = w := by simpa [narrow, hn, hv, ho] using h
      exact Int.bmod_bmod

/-- Whatever a read answers is in the word range where the held values are. -/
theorem State.WordsFit.holds {s : State} {a v : Int} (hs : s.WordsFit) (h : Holds s a v) : inWordRange s.cfg v = true := by
  obtain ⟨_, _, hv | ⟨_, _, rfl⟩⟩ := h
  · exact hs.1 _ v hv
  · exact inWordRange_zero s.cfg

theorem State.WordsFit.operandIs {s : State} {k : Nat} {m : Mode} {v : Int} (hs : s.WordsFit) (h : OperandIs s k m v) :
    inWordRange s.cfg v = true := by
  obtain ⟨p, hp, ⟨_, hv⟩ | ⟨_, rfl⟩⟩ := h
  · exact hs.holds hv
  · exact hs.holds hp

theorem State.WordsFit.putCell {s : State} {a : Nat} {v : Int} (hs : s.WordsFit) (hv : inWordRange s.cfg v = true) :
    (putCell a v s).WordsFit := by
  obtain ⟨hmem, hinq, hout⟩ := hs
  refine ⟨fun b u hu => ?_, hinq, hout⟩
  rw [putCell_mem, Memory.lookup_insert] at hu
  split at hu
  · obtain rfl : v = u := by simpa using hu
    exact hv
  · exact hmem b u hu

theorem State.WordsFit.setOut {s : State} {v : Int} (hs : s.WordsFit) (hv : inWordRange s.cfg v = true) :
    (setOut v s).WordsFit := by
  obtain ⟨hmem, hinq, _⟩ := hs
  refine ⟨hmem, hinq, fun u hu => ?_⟩
  obtain rfl : v = u := by simpa using hu
  exact hv

theorem State.WordsFit.popInput {s : State} (hs : s.WordsFit) : (popInput s).WordsFit := by
  obtain ⟨hmem, hinq, hout⟩ := hs
  exact ⟨hmem, fun v hv => hinq v (List.mem_of_mem_tail hv), hout⟩

theorem threeCell_wordsFit {f : Int → Int → Except FailReason Int} {m1 m2 m3 : Mode} {s t : State} (hs : s.WordsFit)
    (hf : ∀ {a b v}, f a b = .ok v → inWordRange s.cfg v = true) (h : threeCell f m1 m2 m3 s = .ok t) : t.WordsFit := by
  obtain ⟨_, _, o, v, _, _, _, hv, _, rfl⟩ := threeCell_eq_ok.mp h
  exact hs.putCell (hf hv)

theorem inputCell_wordsFit {m1 : Mode} {s t : State} (hs : s.WordsFit) (h : inputCell m1 s = .ok t) : t.WordsFit := by
  obtain ⟨o, _, ⟨_, rfl⟩ | ⟨v, vs, hq, _, rfl⟩⟩ := inputCell_eq_ok.mp h
  · exact hs
  · have hv : inWordRange s.cfg v = true := hs.2.1 v (by simp [hq])
    exact (hs.putCell hv).popInput

theorem outputCell_wordsFit {m1 : Mode} {s t : State} (hs : s.WordsFit) (h : outputCell m1 s = .ok t) : t.WordsFit := by
  obtain ⟨v, hv, rfl⟩ := outputCell_eq_ok.mp h
  exact hs.setOut (hs.operandIs hv)

theorem condJump_wordsFit {taken : Int → Bool} {m1 m2 : Mode} {s t : State} (hs : s.WordsFit)
    (h : condJump taken m1 m2 s = .ok t) : t.WordsFit := by
  obtain ⟨_, _, _, _, ⟨_, _, rfl⟩ | ⟨_, rfl⟩⟩ := condJump_eq_ok.mp h <;> exact hs

/-- A handler's step keeps the word range where the handler's completion does: a failure's entry holds the same values. -/
theorem runHandler_wordsFit {s t : State} {x : Except FailReason State} (hs : s.WordsFit)
    (h : runHandler s x = .next t) (hx : ∀ {u}, x = .ok u → u.WordsFit) : t.WordsFit := by
  obtain h | ⟨_, _, rfl⟩ := runHandler_eq_next.mp h
  · exact hx h
  · exact hs

/-- Every instruction keeps the held values in the word range of a word that holds a comparison's 1. -/
theorem exec_wordsFit {i : Instr} {s t : State} (hw : ∀ n, s.cfg.wordBits = some n → 2 ≤ n) (hs : s.WordsFit)
    (h : exec i s = .next t) : t.WordsFit := by
  have comparison {b : Bool} {v : Int} (hv : Except.ok (ε := FailReason) (truth b) = .ok v) : inWordRange s.cfg v = true :=
    Except.ok.inj hv ▸ inWordRange_truth hw b
  cases i with
  | add | mul => exact runHandler_wordsFit hs h (threeCell_wordsFit hs inWordRange_of_narrow)
  | lt | eq => exact runHandler_wordsFit hs h (threeCell_wordsFit hs comparison)
  | inp => exact runHandler_wordsFit hs h (inputCell_wordsFit hs)
  | outp => exact runHandler_wordsFit hs h (outputCell_wordsFit hs)
  | jt | jf => exact runHandler_wordsFit hs h (condJump_wordsFit hs)
  | hlt =>
    refine runHandler_wordsFit (x := .ok (halt s)) hs h fun hu => ?_
    obtain rfl : halt s = _ := by simpa using hu
    exact hs

end Sys2Proof.Machine
end

section
/-! SUPPORT. The same instruction over two memories (20_memory.md R41, R48): where its parameters resolve alike, it ends alike,
and stores the same value in the same cell or nothing. -/

namespace Sys2Proof.Machine

/-- Two memories `m` and `n` became `m'` and `n'` alike: both as they were, or both with one value stored in one cell. -/
def StoredAlike (m n m' n' : Memory) : Prop :=
  m' = m ∧ n' = n ∨ ∃ o v, m' = m.insert o v ∧ n' = n.insert o v

/-- Each cell ends with the same value in both memories, or as it was in both. -/
theorem StoredAlike.lookup {m n m' n' : Memory} (h : StoredAlike m n m' n') (a : Nat) :
    n'.lookup a = m'.lookup a ∨ n'.lookup a = n.lookup a ∧ m'.lookup a = m.lookup a := by
  obtain ⟨rfl, rfl⟩ | ⟨o, v, rfl, rfl⟩ := h
  · exact .inr ⟨rfl, rfl⟩
  · by_cases ha : a = o
    · simp [ha]
    · exact .inr ⟨Memory.lookup_insert_of_ne _ v ha, Memory.lookup_insert_of_ne _ v ha⟩

/-- What a handler answers from `s`, and what it answers from `s` with the memory `n` instead: the same failure, or states that
differ in memory alone, stored alike. -/
inductive AnswersAlike (s : State) (n : Memory) : Except FailReason State → Except FailReason State → Prop
  | failed (r : FailReason) : AnswersAlike s n (.error r) (.error r)
  | done (t : State) (n' : Memory) : StoredAlike s.mem n t.mem n' → AnswersAlike s n (.ok t) (.ok { t with mem := n' })

/-- A first action that does not see the memory leaves it to the rest to answer alike. -/
theorem AnswersAlike.bind {α : Type} {s : State} {n : Memory} {x : Except FailReason α}
    {f g : α → Except FailReason State} (h : ∀ a, AnswersAlike s n (f a) (g a)) :
    AnswersAlike s n (x >>= f) (x >>= g) := by
  cases x with
  | error r => exact .failed r
  | ok a => exact h a

/-- A change that leaves the memory alone. -/
theorem AnswersAlike.unstored {s : State} {n : Memory} {t : State} (h : t.mem = s.mem) :
    AnswersAlike s n (.ok t) (.ok { t with mem := n }) := .done t n (.inl ⟨h, rfl⟩)

/-- A first action that answers alike leaves it to the rest to go on alike from states that differ in memory alone. -/
theorem AnswersAlike.andThen {s : State} {n : Memory} {x y : Except FailReason State}
    {f : State → Except FailReason State} (h : AnswersAlike s n x y)
    (hf : ∀ t n', StoredAlike s.mem n t.mem n' → AnswersAlike s n (f t) (f { t with mem := n' })) :
    AnswersAlike s n (x >>= f) (y >>= f) := by
  cases h with
  | failed r => exact .failed r
  | done t n' hst => exact hf t n' hst

/-- A write's check looks at the parameters alone (R43). -/
theorem memWrite_withMem (s : State) (n : Memory) (a v : Int) :
    AnswersAlike s n (memWrite s a v) (memWrite { s with mem := n } a v) := by
  by_cases hb : BadAddress s a
  · rw [memWrite_eq_error.mpr ⟨hb, rfl⟩, (memWrite_eq_error (s := { s with mem := n })).mpr ⟨hb, rfl⟩]
    exact .failed _
  · rw [memWrite_eq_ok.mpr ⟨hb, rfl⟩, (memWrite_eq_ok (s := { s with mem := n })).mpr ⟨hb, rfl⟩]
    exact .done _ _ (.inr ⟨a.toNat, v, rfl, rfl⟩)

theorem threeCell_withMem {f : Int → Int → Except FailReason Int} {m1 m2 m3 : Mode} {s : State} {n : Memory}
    (h1 : resolveRead { s with mem := n } 1 m1 = resolveRead s 1 m1)
    (h2 : resolveRead { s with mem := n } 2 m2 = resolveRead s 2 m2)
    (h3 : resolveWrite { s with mem := n } 3 m3 = resolveWrite s 3 m3) :
    AnswersAlike s n (threeCell f m1 m2 m3 s) (threeCell f m1 m2 m3 { s with mem := n }) := by
  unfold threeCell
  rw [h1, h2, h3]
  exact .bind fun a => .bind fun b => .bind fun o => .bind fun v =>
    (memWrite_withMem s n o v).andThen fun t n' hst => .done (advance 4 t) n' hst

theorem inputCell_withMem {m1 : Mode} {s : State} {n : Memory}
    (h1 : resolveWrite { s with mem := n } 1 m1 = resolveWrite s 1 m1) :
    AnswersAlike s n (inputCell m1 s) (inputCell m1 { s with mem := n }) := by
  unfold inputCell
  rw [h1]
  refine .bind fun o => ?_
  obtain ⟨ip, mem, inq, out, status, cfg⟩ := s
  cases inq with
  | nil => exact .unstored rfl
  | cons v vs => exact (memWrite_withMem _ n o v).andThen fun t n' hst => .done (advance 2 (popInput t)) n' hst

theorem outputCell_withMem {m1 : Mode} {s : State} {n : Memory}
    (h1 : resolveRead { s with mem := n } 1 m1 = resolveRead s 1 m1) :
    AnswersAlike s n (outputCell m1 s) (outputCell m1 { s with mem := n }) := by
  unfold outputCell
  rw [h1]
  exact .bind fun v => .unstored rfl

theorem condJump_withMem {taken : Int → Bool} {m1 m2 : Mode} {s : State} {n : Memory}
    (h1 : resolveRead { s with mem := n } 1 m1 = resolveRead s 1 m1)
    (h2 : resolveRead { s with mem := n } 2 m2 = resolveRead s 2 m2) :
    AnswersAlike s n (condJump taken m1 m2 s) (condJump taken m1 m2 { s with mem := n }) := by
  unfold condJump
  rw [h1, h2]
  refine .bind fun c => .bind fun d => ?_
  split
  · split
    · exact .failed _
    · exact .unstored rfl
  · exact .unstored rfl

/-- Handlers that answer alike end their steps alike. -/
theorem AnswersAlike.runHandler {s t : State} {n : Memory} {x y : Except FailReason State} (hxy : AnswersAlike s n x y)
    (h : runHandler s x = .next t) :
    ∃ n', runHandler { s with mem := n } y = .next { t with mem := n' } ∧ StoredAlike s.mem n t.mem n' := by
  cases hxy with
  | failed r =>
    obtain rfl : raiseFail r s = t := by simpa using h
    exact ⟨n, rfl, .inl ⟨rfl, rfl⟩⟩
  | done u n' hst =>
    obtain rfl : u = t := by simpa using h
    exact ⟨n', rfl, hst⟩

/-- Every parameter of the instruction resolves over the memory `n` as it does in `s`. -/
structure ResolvesAlike (i : Instr) (s : State) (n : Memory) : Prop where
  reads : ∀ {k m}, (k, m) ∈ readParams i → resolveRead { s with mem := n } k m = resolveRead s k m
  writes : ∀ {k m}, writeParam i = some (k, m) → resolveWrite { s with mem := n } k m = resolveWrite s k m

/-- An instruction whose parameters resolve alike over another memory ends the same way there, but for the memory itself, which
is stored alike. -/
theorem exec_withMem {i : Instr} {s t : State} {n : Memory} (hp : ResolvesAlike i s n) (h : exec i s = .next t) :
    ∃ n', exec i { s with mem := n } = .next { t with mem := n' } ∧ StoredAlike s.mem n t.mem n' := by
  cases i with
  | add m1 m2 m3 | mul m1 m2 m3 | lt m1 m2 m3 | eq m1 m2 m3 =>
    exact (threeCell_withMem (m1 := m1) (m2 := m2) (m3 := m3) (hp.reads (by simp [readParams]))
      (hp.reads (by simp [readParams])) (hp.writes rfl)).runHandler h
  | inp m1 => exact (inputCell_withMem (hp.writes rfl)).runHandler h
  | outp m1 => exact (outputCell_withMem (hp.reads (by simp [readParams]))).runHandler h
  | jt m1 m2 | jf m1 m2 =>
    exact (condJump_withMem (m1 := m1) (m2 := m2) (hp.reads (by simp [readParams]))
      (hp.reads (by simp [readParams]))).runHandler h
  | hlt => exact (AnswersAlike.unstored (t := halt s) rfl).runHandler h

/-- A read sees the memory at its own cell alone (R42). -/
theorem memRead_withMem {s : State} {n : Memory} {a : Int} (h : 0 ≤ a → n.lookup a.toNat = s.mem.lookup a.toNat) :
    memRead { s with mem := n } a = memRead s a := by
  unfold memRead
  by_cases ha : a < 0
  · simp [ha]
  · rw [h (Int.not_lt.mp ha)]

/-- A read parameter resolves alike where its word is read alike, and in position mode the cell the word names. -/
theorem resolveRead_withMem {s : State} {n : Memory} {k : Nat} {m : Mode}
    (hk : memRead { s with mem := n } ((s.ip + k : Nat) : Int) = memRead s ((s.ip + k : Nat) : Int))
    (hm : m = .position → ∀ p, Holds s (s.ip + k) p → memRead { s with mem := n } p = memRead s p) :
    resolveRead { s with mem := n } k m = resolveRead s k m := by
  have hw : paramWord { s with mem := n } k = paramWord s k := hk
  unfold resolveRead
  rw [hw]
  cases hp : paramWord s k with
  | error r => rfl
  | ok p =>
    cases m with
    | position => exact hm rfl p (paramWord_eq_ok.mp hp)
    | immediate | illegal => rfl

/-- A write parameter resolves alike where its word is read alike. -/
theorem resolveWrite_withMem {s : State} {n : Memory} {k : Nat} {m : Mode}
    (hk : memRead { s with mem := n } ((s.ip + k : Nat) : Int) = memRead s ((s.ip + k : Nat) : Int)) :
    resolveWrite { s with mem := n } k m = resolveWrite s k m := by
  have hw : paramWord { s with mem := n } k = paramWord s k := hk
  unfold resolveWrite
  rw [hw]

/-- A parameter's word is one of the instruction's own cells (30_encoding.md R60, R64). -/
theorem readParam_lt_width {i : Instr} {k : Nat} {m : Mode} (h : (k, m) ∈ readParams i) : k < i.width := by
  cases i <;> simp [readParams, Instr.width] at h ⊢ <;> omega

theorem writeParam_lt_width {i : Instr} {k : Nat} {m : Mode} (h : writeParam i = some (k, m)) : k < i.width := by
  cases i <;> simp [writeParam, Instr.width] at h ⊢ <;> omega

/-- Over a memory that agrees on the cells the instruction reads, its parameters resolve alike (20_memory.md R48). -/
theorem resolvesAlike_of_readsCell {i : Instr} {s : State} {n : Memory}
    (h : ∀ a, ReadsCell i s a → n.lookup a = s.mem.lookup a) : ResolvesAlike i s n := by
  have own {k : Nat} (hk : k < i.width) :
      memRead { s with mem := n } ((s.ip + k : Nat) : Int) = memRead s ((s.ip + k : Nat) : Int) :=
    memRead_withMem fun _ => h _ (.inl (by omega))
  refine ⟨fun {k m} hkm => ?_, fun hkm => resolveWrite_withMem (own (writeParam_lt_width hkm))⟩
  refine resolveRead_withMem (own (readParam_lt_width hkm)) fun hm p hp => memRead_withMem fun h₀ => ?_
  refine h _ (.inr ⟨k, hm ▸ hkm, ?_⟩)
  rwa [Int.toNat_of_nonneg h₀]

/-- Over a memory that every read sees alike, all parameters resolve alike. -/
theorem resolvesAlike_of_memRead {i : Instr} {s : State} {n : Memory}
    (h : ∀ a, memRead { s with mem := n } a = memRead s a) : ResolvesAlike i s n :=
  ⟨fun _ => resolveRead_withMem (h _) fun _ p _ => h p, fun _ => resolveWrite_withMem (h _)⟩

/-- Over a memory that every read sees alike, a step ends the same way, but for the memory itself, which is stored alike. -/
theorem step_withMem {s t : State} {n : Memory} (hr : ∀ a, memRead { s with mem := n } a = memRead s a)
    (h : step s = .next t) :
    ∃ n', step { s with mem := n } = .next { t with mem := n' } ∧ StoredAlike s.mem n t.mem n' := by
  have hfetch : fetchDecode { s with mem := n } = fetchDecode s := by
    unfold fetchDecode
    rw [hr]
  simp only [step_eq_next, instructionStep_eq_next, fetchDecode_enterRunning, hfetch] at h ⊢
  obtain ⟨hterm, rfl⟩ | ⟨hterm, ⟨r, he, rfl⟩ | ⟨i, hi, h⟩⟩ := h
  · exact ⟨n, .inl ⟨hterm, rfl⟩, .inl ⟨rfl, rfl⟩⟩
  · exact ⟨n, .inr ⟨hterm, .inl ⟨r, he, rfl⟩⟩, .inl ⟨rfl, rfl⟩⟩
  · obtain ⟨n', hn', hst⟩ := exec_withMem (s := enterRunning s) (resolvesAlike_of_memRead hr) h
    exact ⟨n', .inr ⟨hterm, .inr ⟨i, hi, hn'⟩⟩, hst⟩

end Sys2Proof.Machine
end

section
/-! SUPPORT. Reads under `UNSET_READ = zero` (20_memory.md R41, R42), and `read_memory` as the lookup of `MemRead`
(44_host_interface.md R135). -/

namespace Sys2Proof.Machine

/-- Under `UNSET_READ = zero` a read at an address that names a cell answers its value, or 0 outside the domain. -/
theorem memRead_of_unsetRead_zero {s : State} {a : Int} (hz : s.cfg.unsetRead = .zero) (ha : ¬ BadAddress s a) :
    memRead s a = .ok ((s.mem.lookup a.toNat).getD 0) := by
  rw [badAddress_iff, not_or] at ha
  unfold memRead
  cases s.mem.lookup a.toNat <;> simp [ha, hz]

/-- An address names a cell when it is not negative and below a finite `MEM_LIMIT`. -/
theorem not_badAddress_iff {s : State} {a : Int} :
    ¬ BadAddress s a ↔ 0 ≤ a ∧ ∀ l, s.cfg.memLimit = some l → a < (l : Int) := by
  simp [BadAddress]

theorem memRead_of_badAddress {s : State} {a : Int} (ha : BadAddress s a) : memRead s a = .error .invalidAddress :=
  memRead_eq_error.mpr (.inl ⟨ha, rfl⟩)

/-- Under `UNSET_READ = zero` a read does not tell a cell outside the domain from one that holds 0. -/
theorem memRead_withMem_of_unsetRead_zero {s : State} {n : Memory} (hz : s.cfg.unsetRead = .zero)
    (hn : ∀ a, (n.lookup a).getD 0 = (s.mem.lookup a).getD 0) (a : Int) :
    memRead { s with mem := n } a = memRead s a := by
  by_cases ha : BadAddress s a
  · rw [memRead_of_badAddress ha, memRead_of_badAddress (s := { s with mem := n }) ha]
  · rw [memRead_of_unsetRead_zero hz ha, memRead_of_unsetRead_zero (s := { s with mem := n }) hz ha, hn]

/-- The host error that reports a failed read (R135). -/
def hostErrorOf : FailReason → HostError
  | .unsetAddress => .unsetAddress
  | _ => .invalidAddress

/-- `read_memory` is `MemRead`, its failure reported to the host (R135). -/
theorem readMemory_eq_memRead (s : State) (a : Int) : readMemory s a = (memRead s a).mapError hostErrorOf := by
  unfold readMemory memRead
  by_cases h₀ : a < 0
  · simp [h₀, Except.mapError, hostErrorOf]
  · by_cases hb : beyondLimit s.cfg a = true
    · simp [h₀, hb, Except.mapError, hostErrorOf]
    · cases s.mem.lookup a.toNat with
      | some v => simp [h₀, hb, Except.mapError]
      | none => cases s.cfg.unsetRead <;> simp [h₀, hb, Except.mapError, hostErrorOf]

/-- Instances that differ at most in their domain are one state with two memories of the same values. -/
theorem SameCells.eq_withMem {s u : State} (h : SameCells s u) : u = { s with mem := u.mem } := by
  obtain ⟨ip, mem, inq, out, status, cfg⟩ := u
  obtain ⟨rfl, rfl, rfl, rfl, rfl, _⟩ := h
  rfl

/-- Memories of the same values, stored alike, hold the same values. -/
theorem StoredAlike.getD_eq {m n m' n' : Memory} (hst : StoredAlike m n m' n')
    (h : ∀ a, (n.lookup a).getD 0 = (m.lookup a).getD 0) (a : Nat) : (n'.lookup a).getD 0 = (m'.lookup a).getD 0 := by
  obtain he | ⟨hn, hm⟩ := hst.lookup a
  · rw [he]
  · rw [hn, hm, h]

end Sys2Proof.Machine
end

section
/-! PROOFS. The obligations of the memory family (20_memory.md). -/

namespace Sys2Proof.Machine

/-- Settles O12: a step stores in one cell or leaves the memory alone, and a store keeps the canonical form. -/
theorem stepKeepsTheInvariant : Obligations.StepKeepsTheInvariant := by
  unfold Obligations.StepKeepsTheInvariant State.Inv
  intro s t hs h
  refine ⟨?_, step_cfg h⟩
  obtain hm | ⟨_, o, v, _, _, hm⟩ := step_mem_cases h
  · rwa [hm]
  · rw [hm]
    exact Memory.insert_wf hs o v

/-- Settles O9. -/
theorem memReadAnswersTheCell : Obligations.MemReadAnswersTheCell := by
  unfold Obligations.MemReadAnswersTheCell
  refine fun s a => ⟨fun ha => memRead_of_badAddress (.inl ha), fun l hl ha => memRead_of_badAddress (.inr ⟨l, hl, ha⟩),
    fun h₀ hlim => ⟨fun v hv => memRead_eq_ok.mpr ⟨h₀, hlim, .inl hv⟩,
      fun hn hz => memRead_eq_ok.mpr ⟨h₀, hlim, .inr ⟨hn, hz, rfl⟩⟩,
      fun hn hf => memRead_eq_error.mpr (.inr ⟨?_, hn, hf, rfl⟩)⟩⟩
  exact not_badAddress_iff.mpr ⟨h₀, hlim⟩

/-- Settles O10: the write stores in the one cell, and a read after it sees that cell alone changed. -/
theorem memWriteSetsOneCell : Obligations.MemWriteSetsOneCell := by
  unfold Obligations.MemWriteSetsOneCell
  refine fun s a v => ⟨fun ha => memWrite_eq_error.mpr ⟨.inl ha, rfl⟩,
    fun l hl ha => memWrite_eq_error.mpr ⟨.inr ⟨l, hl, ha⟩, rfl⟩, fun h₀ hlim => ⟨putCell a.toNat v s, ?_, ?_, ?_, rfl⟩⟩
  · exact memWrite_eq_ok.mpr ⟨not_badAddress_iff.mpr ⟨h₀, hlim⟩, rfl⟩
  · exact Memory.lookup_insert_self s.mem a.toNat v
  · exact fun b hb => Memory.lookup_insert_of_ne s.mem v hb

/-- Settles O11: a store adds its own cell to the domain and takes none away. -/
theorem domainGrowsOnlyByTheWrittenCell : Obligations.DomainGrowsOnlyByTheWrittenCell := by
  unfold Obligations.DomainGrowsOnlyByTheWrittenCell
  intro s t h
  obtain hm | ⟨i, o, v, hi, ho, hm⟩ := step_mem_cases h
  · rw [hm]
    exact ⟨fun _ ha => ha, fun _ hn ha => absurd hn ha⟩
  · simp only [hm, Memory.lookup_insert]
    refine ⟨fun a ha => ?_, fun a hn ha => ?_⟩
    · split
      · simp
      · exact ha
    · split at ha
      · rename_i hao
        exact ⟨i, hi, hao ▸ ho⟩
      · exact absurd hn ha

/-- Settles O15. -/
theorem stepKeepsTheWordRange : Obligations.StepKeepsTheWordRange := by
  unfold Obligations.StepKeepsTheWordRange
  intro s t hw hs h
  obtain rfl | ⟨r, rfl⟩ | ⟨i, _, h⟩ := step_cases h
  · exact hs
  · exact hs
  · exact exec_wordsFit (s := enterRunning s) hw hs h

/-- Settles O27: none of the four suspends, halts, pops the queue or sets the last output, and each writes its third parameter
alone. -/
theorem frameOfArithmeticAndComparison : Obligations.FrameOfArithmeticAndComparison := by
  unfold Obligations.FrameOfArithmeticAndComparison
  intro m1 m2 m3 s t i hi h
  obtain ⟨hout, hinq, hcfg⟩ := outputAndQueueChangeOnlyByTheirInstruction i s t h
  have hwrite : writeParam i = some (3, m3) := by
    obtain rfl | rfl | rfl | rfl := hi <;> rfl
  refine ⟨?_, ?_, hcfg, ?_, fun a ha => exec_lookup_of_not_writes h (not_writesCell_of_resolveWrite_ne hwrite ha)⟩
  · obtain hinq | ⟨m, _, _, rfl, _⟩ := hinq
    · exact hinq
    · simp at hi
  · obtain hout | ⟨m, _, rfl, _⟩ := hout
    · exact hout
    · simp at hi
  · obtain hst | hst | ⟨m, rfl, _⟩ | ⟨m, rfl, _⟩ | ⟨rfl, _⟩ := exec_status_cases h
    · exact .inl hst
    · exact .inr hst
    all_goals simp at hi

/-- Settles O28: IN neither sets the last output nor halts, and writes its first parameter alone. -/
theorem frameOfInput : Obligations.FrameOfInput := by
  unfold Obligations.FrameOfInput
  intro m1 s t h
  obtain ⟨hout, hinq, hcfg⟩ := outputAndQueueChangeOnlyByTheirInstruction (.inp m1) s t h
  refine ⟨by simpa using hout, hcfg, ?_, ?_, fun a ha =>
    exec_lookup_of_not_writes h (not_writesCell_of_resolveWrite_ne rfl ha)⟩
  · obtain hinq | ⟨_, v, _, _, hpop, _⟩ := hinq
    · exact .inl hinq
    · exact .inr (by simp [hpop])
  · obtain hst | hst | ⟨_, _, _, hst⟩ | ⟨_, hi, _⟩ | ⟨hi, _⟩ := exec_status_cases h
    · exact .inl hst
    · exact .inr (.inr hst)
    · exact .inr (.inl hst)
    all_goals simp at hi

/-- Settles O29: none of the four has a write parameter or pops the queue, only OUT sets the last output, and a jump neither
suspends nor halts. -/
theorem frameOfOutputJumpsAndHalt : Obligations.FrameOfOutputJumpsAndHalt := by
  unfold Obligations.FrameOfOutputJumpsAndHalt
  intro m1 m2 s t i hi h
  obtain ⟨hout, hinq, hcfg⟩ := outputAndQueueChangeOnlyByTheirInstruction i s t h
  have hmem : t.mem = s.mem := exec_mem_of_writeParam_eq_none h (by obtain rfl | rfl | rfl | rfl := hi <;> rfl)
  refine ⟨fun a => by rw [hmem], hmem, ?_, hcfg, fun hne => ?_, fun hjump => ?_⟩
  · obtain hinq | ⟨_, _, _, rfl, _⟩ := hinq
    · exact hinq
    · simp at hi
  · obtain hout | ⟨m, _, rfl, _⟩ := hout
    · exact hout
    · exact absurd (by simpa using hi) hne
  · obtain hst | hst | ⟨m, rfl, _⟩ | ⟨m, rfl, _⟩ | ⟨rfl, _⟩ := exec_status_cases h
    · exact .inl hst
    · exact .inr hst
    all_goals simp at hjump

/-- Settles O32: reads see the two memories alike, so the step ends alike and stores alike. -/
theorem unsetCellsActAsZero : Obligations.UnsetCellsActAsZero := by
  unfold Obligations.UnsetCellsActAsZero
  intro s u hz hsu
  rw [hsu.eq_withMem]
  obtain ⟨_, _, _, _, _, hcells⟩ := hsu
  have hread := memRead_withMem_of_unsetRead_zero hz hcells
  refine ⟨fun a => by rw [readMemory_eq_memRead, readMemory_eq_memRead, hread], fun t h => ?_⟩
  obtain ⟨n, hn, hst⟩ := step_withMem hread h
  exact ⟨_, hn, rfl, rfl, rfl, rfl, rfl, hst.getD_eq hcells⟩

/-- Settles O33: over the other memory the parameters resolve alike, so the instruction ends alike and stores alike. -/
theorem instructionReadsOnlyItsCells : Obligations.InstructionReadsOnlyItsCells := by
  unfold Obligations.InstructionReadsOnlyItsCells
  intro i s t n hn h
  obtain ⟨n', hn', hst⟩ := exec_withMem (resolvesAlike_of_readsCell hn) h
  exact ⟨_, hn', rfl, rfl, rfl, rfl, hst.lookup⟩

/-- Settles O34: ADD completes with its sum in the target cell and the pointer past its four cells. -/
theorem writtenCodeIsFetchedNext : Obligations.WrittenCodeIsFetchedNext := by
  unfold Obligations.WrittenCodeIsFetchedNext
  intro m1 m2 m3 s a b o h1 h2 h3 hb hfit
  have hadd := (threeCell_eq_ok (f := fun a b => narrow s.cfg (a + b))).mpr
    ⟨a, b, o, a + b, h1, h2, h3, narrow_of_inWordRange hfit, hb, rfl⟩
  have hexec : exec (.add m1 m2 m3) s = .next (advance 4 (putCell o (a + b) s)) := runHandler_eq_next.mpr (.inl hadd)
  refine ⟨_, hexec, rfl, ?_, fun _ _ => Memory.lookup_insert_self s.mem o (a + b)⟩
  rintro rfl
  have hnext : memRead (advance 4 (putCell (s.ip + 4) (a + b) s)) ((s.ip + 4 : Nat) : Int) = .ok (a + b) := by
    obtain ⟨h₀, hlim⟩ := not_badAddress_iff.mp hb
    exact memRead_eq_ok.mpr ⟨h₀, hlim, .inl (Memory.lookup_insert_self s.mem _ _)⟩
  unfold fetchDecode
  rw [advance_ip, putCell_ip, hnext]
  rfl

end Sys2Proof.Machine
end

section
/-! SUPPORT. The decimal digits of a word and of a canonical word (30_encoding.md R61, R71): the dispatch table selects an
instruction from a word's fields exactly when the digits the instruction uses are those of its canonical word. -/

namespace Sys2Proof

/-- An instruction has one cell more than parameters (R60, R64). -/
theorem Instr.width_eq (i : Instr) : i.width = i.modes.length + 1 := by
  cases i <;> rfl

theorem Instr.modes_length_le (i : Instr) : i.modes.length ≤ 3 := by
  cases i <;> simp [Instr.modes]

theorem Instr.opcode_le (i : Instr) : i.opcode ≤ 99 := by
  cases i <;> simp [Instr.opcode]

theorem lt_of_mem_modeDigits {i : Instr} (h : i.WellFormed) {d : Nat} (hd : d ∈ i.modes.map Mode.toDigit) : d < 10 := by
  obtain ⟨m, hm, rfl⟩ := List.mem_map.mp hd
  exact Nat.lt_succ_of_le (Mode.toDigit_le (Instr.wellFormed_iff.mp h m hm))

/-- The mode digits of a well-formed instruction select its modes (R66). -/
theorem modeDigits_map_ofDigit {i : Instr} (h : i.WellFormed) : (i.modes.map Mode.toDigit).map Mode.ofDigit = i.modes := by
  rw [List.map_map]
  exact (List.map_congr_left fun m hm => Mode.ofDigit_toDigit (Instr.wellFormed_iff.mp h m hm)).trans (List.map_id _)

/-- The mode digits of a word for the first `n` parameters (R61). -/
def paramDigits (w : Int) (n : Nat) : List Nat := (List.range n).map fun k => digit w (k + 2)

@[simp] theorem paramDigits_length (w : Int) (n : Nat) : (paramDigits w n).length = n := by
  simp [paramDigits]

theorem le_of_mem_paramDigits {w : Int} {n d : Nat} (h : d ∈ paramDigits w n) : d ≤ 9 := by
  obtain ⟨k, _, rfl⟩ := List.mem_map.mp h
  exact digit_le w (k + 2)

theorem paramDigits_succ (w : Int) (n : Nat) : paramDigits w (n + 1) = paramDigits w n ++ [digit w (n + 2)] := by
  simp [paramDigits, List.range_succ]

/-- One more decimal digit of a word (00_scope.md R8), for words of both signs. -/
theorem emod_pow_succ_eq_add_digit (w : Int) (k : Nat) : w % 10 ^ (k + 1) = w % 10 ^ k + 10 ^ k * (digit w k : Int) := by
  have hdigit : (digit w k : Int) = w / 10 ^ k % 10 := Int.toNat_of_nonneg (by omega)
  have hlow := Int.mul_ediv_add_emod w (10 ^ k)
  have hnext := Int.mul_ediv_add_emod (w / 10 ^ k) 10
  have hall := Int.mul_ediv_add_emod w (10 ^ (k + 1))
  rw [pow_succ, ← Int.ediv_ediv_of_nonneg (by positivity)] at hall
  rw [hdigit, pow_succ]
  linear_combination hall - hlow - 10 ^ k * hnext

/-- The low digits of a word are its opcode and the mode digits of its first `n` parameters (R61). -/
theorem emod_pow_eq_paramDigits (w : Int) (n : Nat) :
    w % 10 ^ (n + 2) = (((fieldsOf w).opc + 100 * Nat.ofDigits 10 (paramDigits w n) : Nat) : Int) := by
  induction n with
  | zero => simp [fieldsOf, paramDigits]; omega
  | succ n ih =>
    rw [emod_pow_succ_eq_add_digit, ih, paramDigits_succ, Nat.ofDigits_append, paramDigits_length, Nat.ofDigits_singleton]
    push_cast
    ring

/-- The canonical word is the opcode and, above it, the digits of the modes the instruction has (R71). -/
theorem encode_eq_ofDigits (i : Instr) :
    encode i = ((i.opcode + 100 * Nat.ofDigits 10 (i.modes.map Mode.toDigit) : Nat) : Int) := by
  cases i <;> simp [encode, Instr.modes, Nat.ofDigits_cons] <;> ring

/-- The dispatch table turned round (40_decode_and_step.md R87): it selects the instruction of the opcode, with the forms of the
mode digits of the parameters it has. -/
theorem Instr.ofDecoded_eq_some {d : Decoded} {i : Instr} :
    Instr.ofDecoded d = some i ↔
      i.opcode = d.opc ∧ i.modes = ([d.m1, d.m2, d.m3].take i.modes.length).map Mode.ofDigit := by
  obtain ⟨opc, m1, m2, m3⟩ := d
  constructor
  · intro h
    unfold Instr.ofDecoded at h
    split at h
    case h_10 => simp at h
    all_goals
      obtain rfl := Option.some.inj h
      simp_all [Instr.opcode, Instr.modes]
  · rintro ⟨rfl, hmodes⟩
    cases i <;> simp_all [Instr.opcode, Instr.modes, Instr.ofDecoded]

theorem take_fields_eq_paramDigits (w : Int) {n : Nat} (h : n ≤ 3) :
    [(fieldsOf w).m1, (fieldsOf w).m2, (fieldsOf w).m3].take n = paramDigits w n := by
  rw [show [(fieldsOf w).m1, (fieldsOf w).m2, (fieldsOf w).m3] = paramDigits w 3 from rfl]
  simp [paramDigits, ← List.map_take, List.take_range, h]

/-- The fields of a word of either sign select an instruction exactly when the instruction is well formed and the digits it uses
are those of its canonical word (R61, R68, R71). -/
theorem Instr.ofDecoded_fieldsOf_eq_some {w : Int} {i : Instr} :
    Instr.ofDecoded (fieldsOf w) = some i ↔ i.WellFormed ∧ w % 10 ^ (i.width + 1) = encode i := by
  rw [Instr.ofDecoded_eq_some, take_fields_eq_paramDigits w i.modes_length_le, Instr.width_eq, emod_pow_eq_paramDigits,
    encode_eq_ofDigits, Int.natCast_inj]
  have hopc : (fieldsOf w).opc ≤ 99 := by simp only [fieldsOf]; omega
  constructor
  · rintro ⟨ho, hm⟩
    have hwf : i.WellFormed := by
      rw [Instr.wellFormed_iff, hm]
      intro m h
      obtain ⟨d, hd, rfl⟩ := List.mem_map.mp h
      exact Mode.ofDigit_wf (le_of_mem_paramDigits hd)
    have hdigits : i.modes.map Mode.toDigit = paramDigits w i.modes.length := by
      conv_lhs => rw [hm]
      simp [Function.comp_def]
    exact ⟨hwf, by rw [ho, hdigits]⟩
  · rintro ⟨hwf, hw⟩
    have hi := i.opcode_le
    have hdigits : paramDigits w i.modes.length = i.modes.map Mode.toDigit :=
      Nat.ofDigits_inj_of_len_eq (b := 10) (by decide) (by simp) (fun _ hd => Nat.lt_succ_of_le (le_of_mem_paramDigits hd))
        (fun _ hd => lt_of_mem_modeDigits hwf hd) (by omega)
    exact ⟨by omega, by rw [hdigits, modeDigits_map_ofDigit hwf]⟩

end Sys2Proof
end

section
/-! SUPPORT. When the decoder answers a given instruction (40_decode_and_step.md R80 to R82, R86): by the digits the instruction
uses, and under `STRICT_MODES` by the ignored ones as well (30_encoding.md R68). -/

namespace Sys2Proof

/-- A word whose fields are decoded decodes to the instruction these select, unless `STRICT_MODES` finds an ignored digit that is
not zero. -/
theorem decodeInstr_eq_ok_of_decode {c : Params} {w : Int} {d : Decoded} {i : Instr} (hd : decode c.negWord w = some d) :
    decodeInstr c w = .ok i ↔
      Instr.ofDecoded d = some i ∧ (c.strictModes = true → ignoredNonzero c.negWord w d i = false) := by
  cases ho : Instr.ofDecoded d with
  | none => simp [decodeInstr, hd, ho]
  | some j =>
    by_cases hj : j = i
    · subst hj
      simp [decodeInstr, hd, ho]
    · simp only [decodeInstr, hd, ho, Option.some.injEq, hj, false_and, iff_false]
      split <;> simp [hj]

/-- Without `STRICT_MODES` only the used digits of the word the fields are taken from decide. -/
theorem decodeInstr_eq_ok_of_not_strict {c : Params} {w v : Int} {i : Instr} (hs : c.strictModes = false)
    (hd : decode c.negWord w = some (fieldsOf v)) :
    decodeInstr c w = .ok i ↔ i.WellFormed ∧ v % 10 ^ (i.width + 1) = encode i := by
  rw [decodeInstr_eq_ok_of_decode hd, Instr.ofDecoded_fieldsOf_eq_some]
  simp [hs]

/-- For a word that is not negative every ignored digit is zero exactly when the word has no digit above those the instruction
uses. -/
theorem ignoredNonzero_eq_false_iff {neg : NegWordDecode} {w : Int} {i : Instr} (h : 0 ≤ w) :
    ignoredNonzero neg w (fieldsOf w) i = false ↔ w < 10 ^ (i.width + 1) := by
  have hsource : digitSource neg w = w := by
    cases neg <;> simp [digitSource, Int.not_lt.mpr h]
  have hwidth : i.width = 1 ∨ i.width = 2 ∨ i.width = 3 ∨ i.width = 4 := by
    cases i <;> simp [Instr.width]
  unfold ignoredNonzero
  rw [hsource]
  obtain hw | hw | hw | hw := hwidth <;> simp [hw, fieldsOf, digit] <;> omega

/-- When a word that is not negative decodes to an instruction. -/
theorem decodeInstr_eq_ok_of_nonneg {c : Params} {w : Int} {i : Instr} (h : 0 ≤ w) :
    decodeInstr c w = .ok i ↔
      i.WellFormed ∧ w % 10 ^ (i.width + 1) = encode i ∧ (c.strictModes = true → w < 10 ^ (i.width + 1)) := by
  rw [decodeInstr_eq_ok_of_decode (decode_of_nonneg h), Instr.ofDecoded_fieldsOf_eq_some, ignoredNonzero_eq_false_iff h,
    and_assoc]

theorem encode_nonneg (i : Instr) : 0 ≤ encode i := encode_eq_ofDigits i ▸ Int.natCast_nonneg _

/-- The canonical word of a well-formed instruction has no digit above those the instruction uses (R71). -/
theorem encode_lt {i : Instr} (h : i.WellFormed) : encode i < 10 ^ (i.width + 1) := by
  have hopc := i.opcode_le
  have hdigits : Nat.ofDigits 10 (i.modes.map Mode.toDigit) < 10 ^ i.modes.length := by
    simpa using Nat.ofDigits_lt_base_pow_length (b := 10) (by decide) fun _ hd => lt_of_mem_modeDigits h hd
  rw [encode_eq_ofDigits, Instr.width_eq]
  norm_cast
  rw [pow_succ, pow_succ]
  omega

/-- The canonical word is its own used digits. -/
theorem encode_emod {i : Instr} (h : i.WellFormed) : encode i % 10 ^ (i.width + 1) = encode i :=
  Int.emod_eq_of_lt (encode_nonneg i) (encode_lt h)

theorem decodeInstr_encode (c : Params) {i : Instr} (h : i.WellFormed) : decodeInstr c (encode i) = .ok i :=
  (decodeInstr_eq_ok_of_nonneg (encode_nonneg i)).mpr ⟨h, encode_emod h, fun _ => encode_lt h⟩

/-- The fields of a word given by its fields (R61, R71). -/
theorem fieldsOf_canonical {opc m1 m2 m3 : Nat} (ho : opc ≤ 99) (h1 : m1 ≤ 9) (h2 : m2 ≤ 9) (h3 : m3 ≤ 9) :
    fieldsOf ((opc + 100 * m1 + 1000 * m2 + 10000 * m3 : Nat) : Int) = ⟨opc, m1, m2, m3⟩ := by
  simp only [fieldsOf, digit, Decoded.mk.injEq]
  omega

end Sys2Proof
end

section
/-! SUPPORT. How IN, OUT, the conditional jumps and a finite word's arithmetic fail (42_io.md R110, R111; 43_control.md R120, R121;
41_arithmetic.md R104), and the status a handler leaves when it completes. -/

namespace Sys2Proof.Machine

theorem TargetFails.not_targetIs {s : State} {k o : Nat} {m : Mode} {r : FailReason} (h : TargetFails s k m r) :
    ¬ TargetIs s k m o := fun ho => by
  have := (resolveWrite_eq_error.mpr h).symm.trans (resolveWrite_eq_ok.mpr ⟨o, rfl, ho⟩)
  simp at this

/-- IN fails at its write parameter or, with a value to store, at a target beyond `MEM_LIMIT` (R110). -/
theorem inputCell_eq_error {m1 : Mode} {s : State} {r : FailReason} :
    inputCell m1 s = .error r ↔
      TargetFails s 1 m1 r ∨
        ∃ o, TargetIs s 1 m1 o ∧ s.inq ≠ [] ∧ BadAddress s (o : Int) ∧ r = .invalidAddress := by
  unfold inputCell
  cases h1 : resolveWrite s 1 m1 with
  | error r1 =>
    have hf := resolveWrite_eq_error.mp h1
    simp [bind, Except.bind, ← resolveWrite_eq_error, h1, hf.not_targetIs]
  | ok o' =>
    obtain ⟨n, rfl, hn⟩ := resolveWrite_eq_ok.mp h1
    have hu : ∀ o, TargetIs s 1 m1 o ↔ o = n := fun o => ⟨fun ho => ho.unique hn, fun ho => ho ▸ hn⟩
    cases hq : s.inq with
    | nil => simp [bind, Except.bind, ← resolveWrite_eq_error, h1]
    | cons v vs =>
      cases h5 : memWrite s (n : Int) v with
      | error r5 =>
        obtain ⟨hb, rfl⟩ := memWrite_eq_error.mp h5
        simpa [bind, Except.bind, ← resolveWrite_eq_error, h1, hu, h5, hb] using eq_comm
      | ok u =>
        have hb := (memWrite_eq_ok.mp h5).1
        simp [bind, Except.bind, ← resolveWrite_eq_error, h1, hu, h5, hb]

/-- OUT fails exactly when its operand does (R111). -/
theorem outputCell_eq_error {m1 : Mode} {s : State} {r : FailReason} :
    outputCell m1 s = .error r ↔ OperandFails s 1 m1 r := by
  unfold outputCell
  rw [← resolveRead_eq_error]
  cases resolveRead s 1 m1 <;> simp [bind, Except.bind]

/-- A conditional jump fails at its operands in order, or, taken, at a negative target (R120, R121). -/
theorem condJump_eq_error {taken : Int → Bool} {m1 m2 : Mode} {s : State} {r : FailReason} :
    condJump taken m1 m2 s = .error r ↔
      OperandFails s 1 m1 r ∨
        ∃ a, OperandIs s 1 m1 a ∧ (OperandFails s 2 m2 r ∨
          ∃ b, OperandIs s 2 m2 b ∧ taken a = true ∧ b < 0 ∧ r = .invalidAddress) := by
  unfold condJump
  simp only [← resolveRead_eq_ok, ← resolveRead_eq_error]
  cases h1 : resolveRead s 1 m1 with
  | error r1 => simp [bind, Except.bind]
  | ok a =>
    cases h2 : resolveRead s 2 m2 with
    | error r2 => simp [bind, Except.bind]
    | ok b =>
      cases ht : taken a with
      | false => simp [bind, Except.bind, ht]
      | true =>
        by_cases hb : b < 0
        · simpa [bind, Except.bind, ht, hb] using eq_comm
        · simp [bind, Except.bind, ht, hb]

/-- A finite word's arithmetic fails with `Overflow` alone (41_arithmetic.md R104). -/
theorem eq_overflow_of_narrow {c : Params} {v : Int} {r : FailReason} (h : narrow c v = .error r) : r = .overflow := by
  unfold narrow at h
  split at h
  · simp at h
  · split at h
    · simp at h
    · split at h <;> simp_all

theorem threeCell_status {f : Int → Int → Except FailReason Int} {m1 m2 m3 : Mode} {s t : State}
    (h : threeCell f m1 m2 m3 s = .ok t) : t.status = s.status := by
  obtain ⟨_, _, _, _, _, _, _, _, _, rfl⟩ := threeCell_eq_ok.mp h
  rfl

theorem inputCell_status {m1 : Mode} {s t : State} (h : inputCell m1 s = .ok t) :
    t.status = s.status ∨ t.status = .suspended .needsInput := by
  obtain ⟨_, _, ⟨_, rfl⟩ | ⟨_, _, _, _, rfl⟩⟩ := inputCell_eq_ok.mp h
  · exact .inr rfl
  · exact .inl rfl

theorem condJump_status {taken : Int → Bool} {m1 m2 : Mode} {s t : State} (h : condJump taken m1 m2 s = .ok t) :
    t.status = s.status := by
  obtain ⟨_, _, _, _, ⟨_, _, rfl⟩ | ⟨_, rfl⟩⟩ := condJump_eq_ok.mp h <;> rfl

/-- A handler's step that leaves a failure, where the handler completes with none, is the handler's own failure. -/
theorem eq_error_of_runHandler {s t : State} {x : Except FailReason State} {r : FailReason} (hr : runHandler s x = .next t)
    (ht : t.status = .failed r) (hok : x = .ok t → t.status ≠ .failed r) : x = .error r := by
  obtain h | ⟨r', h, rfl⟩ := runHandler_eq_next.mp hr
  · exact absurd ht (hok h)
  · obtain rfl : r' = r := by simpa using ht
    exact h

end Sys2Proof.Machine
end

section
/-! SUPPORT. Which instructions can complete or fail for their modes (30_encoding.md R66, R68). -/

namespace Sys2Proof.Machine

/-- A read parameter resolves only in a legal mode (R66). -/
theorem OperandIs.legalRead {s : State} {k : Nat} {m : Mode} {v : Int} (h : OperandIs s k m v) : m.legalRead = true := by
  obtain ⟨_, _, ⟨rfl, _⟩ | ⟨rfl, _⟩⟩ := h <;> rfl

/-- A write parameter resolves only in a legal mode (R66). -/
theorem TargetIs.legalWrite {s : State} {k o : Nat} {m : Mode} (h : TargetIs s k m o) : m.legalWrite = true := by
  obtain ⟨rfl, _⟩ := h
  rfl

theorem threeCell_legal {f : Int → Int → Except FailReason Int} {m1 m2 m3 : Mode} {s t : State}
    (h : threeCell f m1 m2 m3 s = .ok t) : (m1.legalRead && m2.legalRead && m3.legalWrite) = true := by
  obtain ⟨_, _, _, _, h1, h2, h3, _⟩ := threeCell_eq_ok.mp h
  simp [h1.legalRead, h2.legalRead, h3.legalWrite]

theorem condJump_legal {taken : Int → Bool} {m1 m2 : Mode} {s t : State} (h : condJump taken m1 m2 s = .ok t) :
    (m1.legalRead && m2.legalRead) = true := by
  obtain ⟨_, _, h1, h2, _⟩ := condJump_eq_ok.mp h
  simp [h1.legalRead, h2.legalRead]

/-- An instruction enters a failure or is a legal encoding: its handler completes only with every parameter resolved (R68). -/
theorem exec_fails_or_legal {i : Instr} {s t : State} (h : exec i s = .next t) : (∃ r, t = raiseFail r s) ∨ i.Legal := by
  have of_handler {x : Except FailReason State} (hx : runHandler s x = .next t) (hl : x = .ok t → i.Legal) :
      (∃ r, t = raiseFail r s) ∨ i.Legal :=
    (runHandler_eq_next.mp hx).elim (fun hok => .inr (hl hok)) fun ⟨r, _, ht⟩ => .inl ⟨r, ht⟩
  cases i with
  | add | mul | lt | eq => exact of_handler h threeCell_legal
  | jt | jf => exact of_handler h condJump_legal
  | inp =>
    refine of_handler h fun hok => ?_
    obtain ⟨_, ho, _⟩ := inputCell_eq_ok.mp hok
    exact ho.legalWrite
  | outp =>
    refine of_handler h fun hok => ?_
    obtain ⟨_, hv, _⟩ := outputCell_eq_ok.mp hok
    exact hv.legalRead
  | hlt => exact .inr rfl

/-- A reason that the instruction word is not to blame for: its opcode is one of the nine and its modes are legal. -/
structure BeyondEncoding (r : FailReason) : Prop where
  ne_invalidMode : r ≠ .invalidMode
  ne_immediateWrite : r ≠ .immediateWrite
  ne_invalidOpcode : r ≠ .invalidOpcode

theorem beyondEncoding_unsetAddress : BeyondEncoding .unsetAddress := by
  constructor <;> simp

theorem beyondEncoding_overflow : BeyondEncoding .overflow := by
  constructor <;> simp

theorem beyondEncoding_invalidAddress : BeyondEncoding .invalidAddress := by
  constructor <;> simp

theorem CellFails.beyondEncoding {s : State} {a : Int} {r : FailReason} (h : CellFails s a r) : BeyondEncoding r := by
  obtain ⟨_, rfl⟩ | ⟨_, _, _, rfl⟩ := h
  · exact beyondEncoding_invalidAddress
  · exact beyondEncoding_unsetAddress

theorem OperandFails.beyondEncoding {s : State} {k : Nat} {m : Mode} {r : FailReason} (h : OperandFails s k m r)
    (hm : m.legalRead = true) : BeyondEncoding r := by
  obtain h | ⟨_, _, ⟨_, h⟩ | ⟨⟨_, rfl⟩, _⟩⟩ := h
  · exact h.beyondEncoding
  · exact h.beyondEncoding
  · simp [Mode.legalRead] at hm

theorem TargetFails.beyondEncoding {s : State} {k : Nat} {m : Mode} {r : FailReason} (h : TargetFails s k m r)
    (hm : m.legalWrite = true) : BeyondEncoding r := by
  obtain h | ⟨_, _, ⟨_, _, rfl⟩ | ⟨rfl, _⟩ | ⟨⟨_, rfl⟩, _⟩⟩ := h
  · exact h.beyondEncoding
  · exact beyondEncoding_invalidAddress
  all_goals simp [Mode.legalWrite] at hm

theorem threeCell_beyondEncoding {f : Int → Int → Except FailReason Int} {m1 m2 m3 : Mode} {s : State} {r : FailReason}
    (hf : ∀ a b, f a b = .error r → BeyondEncoding r) (hl : (m1.legalRead && m2.legalRead && m3.legalWrite) = true)
    (h : threeCell f m1 m2 m3 s = .error r) : BeyondEncoding r := by
  simp only [Bool.and_eq_true] at hl
  obtain ⟨⟨hl1, hl2⟩, hl3⟩ := hl
  obtain h1 | ⟨a, _, h2 | ⟨b, _, h3 | ⟨_, _, h4 | ⟨_, _, _, rfl⟩⟩⟩⟩ := threeCell_eq_error.mp h
  · exact h1.beyondEncoding hl1
  · exact h2.beyondEncoding hl2
  · exact h3.beyondEncoding hl3
  · exact hf a b h4
  · exact beyondEncoding_invalidAddress

theorem condJump_beyondEncoding {taken : Int → Bool} {m1 m2 : Mode} {s : State} {r : FailReason}
    (hl : (m1.legalRead && m2.legalRead) = true) (h : condJump taken m1 m2 s = .error r) : BeyondEncoding r := by
  simp only [Bool.and_eq_true] at hl
  obtain ⟨hl1, hl2⟩ := hl
  obtain h1 | ⟨_, _, h2 | ⟨_, _, _, _, rfl⟩⟩ := condJump_eq_error.mp h
  · exact h1.beyondEncoding hl1
  · exact h2.beyondEncoding hl2
  · exact beyondEncoding_invalidAddress

theorem inputCell_beyondEncoding {m1 : Mode} {s : State} {r : FailReason} (hl : m1.legalWrite = true)
    (h : inputCell m1 s = .error r) : BeyondEncoding r := by
  obtain h1 | ⟨_, _, _, _, rfl⟩ := inputCell_eq_error.mp h
  · exact h1.beyondEncoding hl
  · exact beyondEncoding_invalidAddress

/-- A legal instruction fails only for what the memory and the word range refuse (R68). -/
theorem exec_beyondEncoding {i : Instr} {s t : State} {r : FailReason} (hl : i.Legal) (hs : s.status = .running)
    (h : exec i s = .next t) (ht : t.status = .failed r) : BeyondEncoding r := by
  have three {f : Int → Int → Except FailReason Int} {m1 m2 m3 : Mode} (hx : runHandler s (threeCell f m1 m2 m3 s) = .next t) :
      threeCell f m1 m2 m3 s = .error r :=
    eq_error_of_runHandler hx ht fun hok => by simp [threeCell_status hok, hs]
  have jump {taken : Int → Bool} {m1 m2 : Mode} (hx : runHandler s (condJump taken m1 m2 s) = .next t) :
      condJump taken m1 m2 s = .error r :=
    eq_error_of_runHandler hx ht fun hok => by simp [condJump_status hok, hs]
  cases i with
  | add | mul => exact threeCell_beyondEncoding (fun _ _ hf => eq_overflow_of_narrow hf ▸ beyondEncoding_overflow) hl (three h)
  | lt | eq => exact threeCell_beyondEncoding (fun _ _ hf => by simp at hf) hl (three h)
  | jt | jf => exact condJump_beyondEncoding hl (jump h)
  | inp =>
    refine inputCell_beyondEncoding hl (eq_error_of_runHandler h ht fun hok => ?_)
    obtain hst | hst := inputCell_status hok <;> simp [hst, hs]
  | outp =>
    refine (outputCell_eq_error.mp (eq_error_of_runHandler h ht fun hok => ?_)).beyondEncoding hl
    simp [(outputCell_ip hok).2]
  | hlt =>
    obtain rfl : halt s = t := Host.Outcome.next.inj h
    simp at ht

end Sys2Proof.Machine
end

section
/-! SUPPORT. Lines of a listing whose operands are all literals (30_encoding.md R72), and the cells a disassembled line stands for
(R73). -/

namespace Sys2Proof.Machine

/-- Operands with parameter words as literals (R73). -/
def literalOperands (modes : List Mode) (ps : List Int) : List AsmOperand := (modes.zip ps).map fun p => ⟨p.1, .lit p.2⟩

theorem literalOperands_modes {modes : List Mode} {ps : List Int} (h : ps.length = modes.length) :
    (literalOperands modes ps).map AsmOperand.mode = modes := by
  rw [literalOperands, List.map_map]
  exact List.map_fst_zip h.ge

/-- A literal has its value under any label table (R72). -/
theorem literalOperands_values (table : List (String × Nat)) {modes : List Mode} {ps : List Int}
    (h : ps.length = modes.length) :
    (literalOperands modes ps).map (fun o : AsmOperand => o.value.eval table) = ps.map some := by
  conv_rhs => rw [← List.map_snd_zip (l₁ := modes) h.le]
  simp [literalOperands, AsmValue.eval, Function.comp_def]

theorem toInstr_mnemonicOf (i : Instr) : (mnemonicOf i).toInstr i.modes = some i := by
  cases i <;> rfl

theorem allSome_map_some {α : Type} (xs : List α) : allSome (xs.map some) = some xs := by
  induction xs with
  | nil => rfl
  | cons x xs ih => simp [allSome, ih]

/-- A line of literals assembles to the canonical word and those literals, under any label table (R71, R72). -/
theorem literal_line_cells (table : List (String × Nat)) {i : Instr} {ps : List Int} (h : ps.length = i.modes.length) :
    (AsmLine.ins (mnemonicOf i) (literalOperands i.modes ps)).cells table = some (encode i :: ps) := by
  simp only [AsmLine.cells, AsmLine.expand]
  rw [literalOperands_modes h, literalOperands_values table h, toInstr_mnemonicOf, allSome_map_some]
  rfl

theorem cellOrZero_eq {m : Memory} {a : Nat} {v : Int} (h : m.lookup a = some v) : cellOrZero m a = v := by
  simp [cellOrZero, h]

/-- The parameter words read cell by cell are the parameter words given, each beside its mode (R60, R73). -/
theorem zipIdx_map_cells {m : Memory} {a : Nat} {modes : List Mode} {ps : List Int} (hlen : ps.length = modes.length)
    (h : ∀ k, k < ps.length → m.lookup (a + k) = ps[k]?) :
    (modes.zipIdx.map fun p => (⟨p.1, .lit (cellOrZero m (a + p.2))⟩ : AsmOperand)) =
      literalOperands modes ps := by
  unfold literalOperands
  refine List.ext_getElem (by simp [hlen]) fun k hk _ => ?_
  have hkp : k < ps.length := by simpa [hlen] using hk
  have hcell : cellOrZero m (a + k) = ps[k] := cellOrZero_eq ((h k hkp).trans (List.getElem?_eq_getElem hkp))
  simp [hcell]

theorem disassembleLine_of_decodes {m : Memory} {a : Nat} {i : Instr}
    (h : decodeInstr Params.spec (cellOrZero m a) = .ok i) :
    disassembleLine m a =
      .ins (mnemonicOf i) (i.modes.zipIdx.map fun p => ⟨p.1, .lit (cellOrZero m (a + 1 + p.2))⟩) := by
  simp [disassembleLine, h]

theorem disassembleWidth_of_decodes {m : Memory} {a : Nat} {i : Instr}
    (h : decodeInstr Params.spec (cellOrZero m a) = .ok i) : disassembleWidth m a = i.width := by
  simp [disassembleWidth, h]

end Sys2Proof.Machine
end

section
/-! PROOFS. The obligations of the encoding family (30_encoding.md). -/

namespace Sys2Proof.Machine

/-- Settles O2: a canonical word has the used digits of its instruction and none above them. -/
theorem everyInstructionRoundTrips : Obligations.EveryInstructionRoundTrips := by
  unfold Obligations.EveryInstructionRoundTrips
  exact fun c _ h => decodeInstr_encode c h

/-- Settles O1. -/
theorem canonicalWordDecodesToItsFields : Obligations.CanonicalWordDecodesToItsFields := by
  unfold Obligations.CanonicalWordDecodesToItsFields
  refine ⟨fun neg opc m1 m2 m3 ho h1 h2 h3 => ?_, fun i => ?_, by decide, by decide⟩
  · rw [decode_of_nonneg (Int.natCast_nonneg _), fieldsOf_canonical ho h1 h2 h3]
  · cases i <;> simp [encode, Instr.modes]

/-- Settles O3: a word's residue modulo a power of ten is at most the word. -/
theorem canonicalWordIsTheSmallest : Obligations.CanonicalWordIsTheSmallest := by
  unfold Obligations.CanonicalWordIsTheSmallest
  refine ⟨fun i hi => ⟨encode_nonneg i, decodeInstr_encode _ hi, fun w hw h => ?_⟩, by decide, by decide⟩
  obtain ⟨_, hused, _⟩ := (decodeInstr_eq_ok_of_nonneg hw).mp h
  obtain ⟨n, rfl⟩ := Int.eq_ofNat_of_zero_le hw
  rw [← hused]
  exact_mod_cast Nat.mod_le n _

/-- Settles O4: the decoder reads the fields of the word itself, or of its absolute value, and these select the instruction by its
used digits. -/
theorem wordDecodesByItsUsedDigits : Obligations.WordDecodesByItsUsedDigits := by
  unfold Obligations.WordDecodesByItsUsedDigits
  intro c i w hs hi
  have used : ∀ {v : Int}, decode c.negWord w = some (fieldsOf v) →
      (decodeInstr c w = .ok i ↔ v % 10 ^ (i.width + 1) = encode i) :=
    fun hd => (decodeInstr_eq_ok_of_not_strict hs hd).trans (and_iff_right hi)
  refine ⟨fun hw => used (decode_of_nonneg hw), fun hw => ⟨fun hn => ?_, fun hn => used ?_, fun hn => used ?_⟩⟩
  · simp [decodeInstr, decode, hn, hw]
  · simp [decode, hn, hw]
  · simp [decode, hn, hw]

/-- Settles O5: a word with no digit above the used ones is its own residue. -/
theorem strictModesAcceptOnlyCanonicalWords : Obligations.StrictModesAcceptOnlyCanonicalWords := by
  unfold Obligations.StrictModesAcceptOnlyCanonicalWords
  intro c i w hs hw
  rw [decodeInstr_eq_ok_of_nonneg hw]
  constructor
  · rintro ⟨hi, hused, hlt⟩
    exact ⟨hi, (Int.emod_eq_of_lt hw (hlt hs)).symm.trans hused⟩
  · rintro ⟨hi, rfl⟩
    exact ⟨hi, encode_emod hi, fun _ => encode_lt hi⟩

/-- Settles O31: an illegal mode keeps its parameter from resolving, and of a legal instruction's failures none names the
encoding. -/
theorem illegalEncodingsFail : Obligations.IllegalEncodingsFail := by
  unfold Obligations.IllegalEncodingsFail
  refine fun i s => ⟨fun hn => ?_, fun hl hs t h => ?_⟩
  · obtain ⟨t, h⟩ := exec_next i s
    obtain ⟨r, rfl⟩ | hl := exec_fails_or_legal h
    · exact ⟨r, h⟩
    · exact absurd hl hn
  · have beyond {r : FailReason} (ht : t.status = .failed r) : BeyondEncoding r := exec_beyondEncoding hl hs h ht
    exact ⟨fun ht => (beyond ht).ne_invalidMode rfl, fun ht => (beyond ht).ne_immediateWrite rfl,
      fun ht => (beyond ht).ne_invalidOpcode rfl⟩

/-- Settles O54: the canonical word decodes to its instruction, so the line is that of the instruction with its parameter words as
literals, which assembles to the cells. -/
theorem disassemblyInvertsAssembly : Obligations.DisassemblyInvertsAssembly := by
  unfold Obligations.DisassemblyInvertsAssembly
  refine ⟨fun _ _ => rfl, fun _ _ _ => rfl, fun i ps m a hi hlen hcells => ?_⟩
  have hmodes : ps.length = i.modes.length := by
    rw [Instr.width_eq] at hlen
    omega
  have hword : cellOrZero m a = encode i := cellOrZero_eq (hcells 0 (by omega))
  have hparams : ∀ k, k < ps.length → m.lookup (a + 1 + k) = ps[k]? := fun k hk => by
    rw [Nat.add_assoc, Nat.add_comm 1 k, hcells (k + 1) (by omega), List.getElem?_cons_succ]
  have hdec : decodeInstr Params.spec (cellOrZero m a) = .ok i := hword ▸ decodeInstr_encode _ hi
  have hline : disassembleLine m a = .ins (mnemonicOf i) (literalOperands i.modes ps) := by
    rw [disassembleLine_of_decodes hdec, zipIdx_map_cells hmodes hparams]
  exact ⟨hline, disassembleWidth_of_decodes hdec, hline ▸ literal_line_cells [] hmodes⟩

/-- Settles O8: each row's word is a small number whose digits the decoder reads. -/
theorem tableWordsDecode : Obligations.TableWordsDecode := by
  unfold Obligations.TableWordsDecode
  decide

end Sys2Proof.Machine
end

section
/-! SUPPORT. What the decoder answers for a word (40_decode_and_step.md R80, R81), and how it fails (R86, 30_encoding.md R68). -/

namespace Sys2Proof

/-- The fields of a word, each written out (30_encoding.md R61). -/
theorem fieldsOf_eq (w : Int) :
    fieldsOf w = ⟨(w % 100).toNat, (w / 100 % 10).toNat, (w / 1000 % 10).toNat, (w / 10000 % 10).toNat⟩ := by
  simp [fieldsOf, digit]

theorem decode_fault_of_neg {w : Int} (h : w < 0) : decode .fault w = none := by
  simp [decode, h]

theorem decode_floored (w : Int) : decode .floored w = some (fieldsOf w) := by
  simp [decode]

theorem decode_truncated_of_neg {w : Int} (h : w < 0) : decode .truncated w = some (fieldsOf (-w)) := by
  simp [decode, h]

/-- Whatever the decoder answers are the fields of some word (R81). -/
theorem exists_fieldsOf_of_decode {neg : NegWordDecode} {w : Int} {d : Decoded} (h : decode neg w = some d) :
    ∃ v, d = fieldsOf v := by
  by_cases hw : w < 0
  · cases neg with
    | fault => simp [decode_fault_of_neg hw] at h
    | floored => exact ⟨w, by simpa [decode_floored, eq_comm] using h⟩
    | truncated => exact ⟨-w, by simpa [decode_truncated_of_neg hw, eq_comm] using h⟩
  · exact ⟨w, by simpa [decode_of_nonneg (Int.not_lt.mp hw), eq_comm] using h⟩

/-- The dispatch table has no row exactly for the opcodes outside the nine (R87). -/
theorem Instr.ofDecoded_eq_none {d : Decoded} :
    Instr.ofDecoded d = none ↔ d.opc ∉ [1, 2, 3, 4, 5, 6, 7, 8, 99] := by
  unfold Instr.ofDecoded
  split <;> simp_all

/-- A word without a decoding fails as an opcode outside the nine does (R86). -/
theorem decodeInstr_of_decode_eq_none {c : Params} {w : Int} (h : decode c.negWord w = none) :
    decodeInstr c w = .error .invalidOpcode := by
  simp [decodeInstr, h]

theorem decodeInstr_of_opc_not_mem {c : Params} {w : Int} {d : Decoded} (hd : decode c.negWord w = some d)
    (ho : d.opc ∉ [1, 2, 3, 4, 5, 6, 7, 8, 99]) : decodeInstr c w = .error .invalidOpcode := by
  simp [decodeInstr, hd, Instr.ofDecoded_eq_none.mpr ho]

/-- A word with one of the nine opcodes decodes to an instruction or fails for an ignored digit alone (R86). -/
theorem decodeInstr_ok_or_invalidMode {c : Params} {w : Int} {d : Decoded} (hd : decode c.negWord w = some d)
    (ho : d.opc ∈ [1, 2, 3, 4, 5, 6, 7, 8, 99]) :
    (∃ i, decodeInstr c w = .ok i) ∨ decodeInstr c w = .error .invalidMode := by
  obtain ⟨i, hi⟩ : ∃ i, Instr.ofDecoded d = some i :=
    Option.ne_none_iff_exists'.mp fun hn => Instr.ofDecoded_eq_none.mp hn ho
  simp only [decodeInstr, hd, hi]
  split
  · exact .inr rfl
  · exact .inl ⟨i, rfl⟩

/-- The floored quotient of a negative word is not zero, so such a word has an ignored digit that is not zero
(notes/assumptions/5.md). -/
theorem ignoredNonzero_floored_of_neg {w : Int} (h : w < 0) (d : Decoded) (i : Instr) :
    ignoredNonzero .floored w d i = true := by
  have hquot : w / 100000 ≠ 0 := by omega
  simp [ignoredNonzero, digitSource, hquot]

/-- A negative word decodes under `truncated` as its absolute value does (R81). -/
theorem decodeInstr_neg_of_truncated {c : Params} {w : Int} (hc : c.negWord = .truncated) (hw : w < 0) :
    decodeInstr c (-w) = decodeInstr c w := by
  have hpos : ¬ 0 < w := by omega
  simp [decodeInstr, decode, ignoredNonzero, digitSource, hc, hw, hpos]

end Sys2Proof
end

section
/-! SUPPORT. What a step does by what it fetched, and the status it leaves (40_decode_and_step.md R86, R90, R91). -/

namespace Sys2Proof.Machine

/-- Where an instruction is fetched, the step runs it with the status Running (R86, R91). -/
theorem step_of_fetchDecode_ok {s : State} {i : Instr} (hs : s.status.terminal = false) (hf : fetchDecode s = .ok i) :
    step s = exec i (enterRunning s) := by
  obtain ⟨t, h⟩ := exec_next i (enterRunning s)
  rw [h]
  exact step_eq_next.mpr (.inr ⟨hs, instructionStep_eq_next.mpr (.inr ⟨i, hf, h⟩)⟩)

/-- Where the fetch or the decode fails, the step is that failure's entry (R86, 60_exceptions.md R162). -/
theorem step_of_fetchDecode_error {s : State} {r : FailReason} (hs : s.status.terminal = false)
    (hf : fetchDecode s = .error r) : step s = .next (raiseFail r s) :=
  step_eq_next.mpr (.inr ⟨hs, instructionStep_eq_next.mpr (.inl ⟨r, hf, rfl⟩)⟩)

/-- The status a step leaves, and the instruction each suspension and the halt come from (R90). -/
theorem step_status_cases {s t : State} (hs : s.status.terminal = false) (h : step s = .next t) :
    t.status = .running ∨ (∃ r, t.status = .failed r) ∨
      (∃ m, fetchDecode s = .ok (.inp m) ∧ s.inq = [] ∧ t.status = .suspended .needsInput) ∨
      (∃ m, fetchDecode s = .ok (.outp m) ∧ t.status = .suspended .producedOutput) ∨
      (fetchDecode s = .ok .hlt ∧ t.status = .halted) := by
  cases hf : fetchDecode s with
  | error r =>
    obtain rfl : raiseFail r s = t := Host.Outcome.next.inj ((step_of_fetchDecode_error hs hf).symm.trans h)
    exact .inr (.inl ⟨r, rfl⟩)
  | ok i =>
    rw [step_of_fetchDecode_ok hs hf] at h
    obtain hst | hst | ⟨m, rfl, hq, hst⟩ | ⟨m, rfl, hst⟩ | ⟨rfl, hst⟩ := exec_status_cases h
    · exact .inl hst
    · exact .inr (.inl hst)
    · exact .inr (.inr (.inl ⟨m, rfl, hq, hst⟩))
    · exact .inr (.inr (.inr (.inl ⟨m, rfl, hst⟩)))
    · exact .inr (.inr (.inr (.inr ⟨rfl, hst⟩)))

/-- A step of an instance that is not terminal leaves it inside the call or ends the call (R91). -/
theorem step_running_or_returned {s t : State} (hs : s.status.terminal = false) (h : step s = .next t) :
    t.status = .running ∨ t.status.Returned := by
  obtain hst | hfail | ⟨_, _, _, hst⟩ | ⟨_, _, hst⟩ | ⟨_, hst⟩ := step_status_cases hs h
  · exact .inl hst
  · exact .inr (.inr (.inr hfail))
  · exact .inr (.inl ⟨_, hst⟩)
  · exact .inr (.inl ⟨_, hst⟩)
  · exact .inr (.inr (.inl hst))

end Sys2Proof.Machine
end

section
/-! SUPPORT. The loop of `run_until_suspend` as repeated stepping, and its fuel (40_decode_and_step.md R91, R93). -/

namespace Sys2Proof.Machine

theorem enterRunning_of_running {s : State} (h : s.status = .running) : enterRunning s = s := by
  unfold enterRunning
  rw [← h]

/-- One turn of the loop is one step (R91). -/
theorem exists_step_runLoop_succ {s : State} (h : s.status = .running) :
    ∃ u, step s = .next u ∧ ∀ fuel, runLoop (fuel + 1) s = runLoop fuel u := by
  obtain ⟨u, hu⟩ := instructionStep_next s
  refine ⟨u, step_eq_next.mpr (.inr ⟨by rw [h]; rfl, ?_⟩), fun fuel => runLoop_succ h hu⟩
  rwa [enterRunning_of_running h]

/-- Entering Running makes no difference to a run of at least one step (R91). -/
theorem core_run_succ_enterRunning {s : State} (h : s.status.terminal = false) (k : Nat) :
    core.run (k + 1) (enterRunning s) = core.run (k + 1) s := by
  obtain ⟨t, ht⟩ := instructionStep_next (enterRunning s)
  have hs : step s = .next t := step_eq_next.mpr (.inr ⟨h, ht⟩)
  rw [core_run_succ hs, core_run_succ ((step_enterRunning h).trans hs)]

/-- A loop that returned from a Running state is a run of the machine whose states before the last are all Running (R91). -/
theorem core_run_of_runLoop {fuel : Nat} {s t : State} (hs : s.status = .running) (h : runLoop fuel s = some t) :
    t.status.Returned ∧
    ∃ k, 1 ≤ k ∧ k ≤ fuel ∧ core.run k s = .next t ∧ ∀ j u, j < k → core.run j s = .next u → u.status = .running := by
  induction fuel generalizing s with
  | zero => simp [runLoop_zero hs] at h
  | succ fuel ih =>
    obtain ⟨v, hv, hloop⟩ := exists_step_runLoop_succ hs
    rw [hloop] at h
    have first : ∀ u, core.run 0 s = .next u → u.status = .running := fun u hu => by
      obtain rfl : s = u := Host.Outcome.next.inj hu
      exact hs
    by_cases hrun : v.status = .running
    · obtain ⟨hret, k, _, hk, hlast, hbefore⟩ := ih hrun h
      refine ⟨hret, k + 1, by omega, by omega, (core_run_succ hv).trans hlast, fun j u hj hu => ?_⟩
      cases j with
      | zero => exact first u hu
      | succ j => exact hbefore j u (by omega) ((core_run_succ hv).symm.trans hu)
    · obtain rfl : v = t := Option.some.inj ((runLoop_of_ne hrun).symm.trans h)
      have hret := (step_running_or_returned (by rw [hs]; rfl) hv).resolve_left hrun
      refine ⟨hret, 1, by omega, by omega, core_run_succ hv, fun j u hj hu => ?_⟩
      obtain rfl : j = 0 := by omega
      exact first u hu

/-- A loop that returned returns the same with more fuel (R93). -/
theorem runLoop_add_fuel {fuel : Nat} {s t : State} (more : Nat) (h : runLoop fuel s = some t) :
    runLoop (fuel + more) s = some t := by
  induction fuel generalizing s with
  | zero =>
    by_cases hs : s.status = .running
    · simp [runLoop_zero hs] at h
    · rwa [runLoop_of_ne hs] at h ⊢
  | succ fuel ih =>
    by_cases hs : s.status = .running
    · obtain ⟨u, _, hloop⟩ := exists_step_runLoop_succ hs
      rw [hloop] at h
      rw [Nat.succ_add, hloop]
      exact ih h
    · rwa [runLoop_of_ne hs] at h ⊢

end Sys2Proof.Machine
end

section
/-! PROOFS. The obligations of the decoder, the step and the call (40_decode_and_step.md). -/

namespace Sys2Proof.Machine

/-- Settles O6: the fields decoded are those of some word, whose mode digits are decimal digits. -/
theorem decodedInstructionsAreWellFormed : Obligations.DecodedInstructionsAreWellFormed := by
  unfold Obligations.DecodedInstructionsAreWellFormed
  intro c w i h
  cases hd : decode c.negWord w with
  | none => simp [decodeInstr_of_decode_eq_none hd] at h
  | some d =>
    obtain ⟨v, rfl⟩ := exists_fieldsOf_of_decode hd
    obtain ⟨hi, _⟩ := (decodeInstr_eq_ok_of_decode hd).mp h
    exact (Instr.ofDecoded_fieldsOf_eq_some.mp hi).1

/-- Settles O36: a step fails with the reason of the fetch or of the decoder. Under `STRICT_MODES` a legal opcode leaves the
decoder an instruction or `InvalidMode`, and an instruction only at a canonical word. -/
theorem stepFailsBeforeDispatch : Obligations.StepFailsBeforeDispatch := by
  unfold Obligations.StepFailsBeforeDispatch
  refine fun s hs => ⟨fun r hr => step_of_fetchDecode_error hs (fetchDecode_eq_error.mpr (.inl hr)), fun w hw => ?_⟩
  have fails {r : FailReason} (hr : decodeInstr s.cfg w = .error r) : step s = .next (raiseFail r s) :=
    step_of_fetchDecode_error hs (fetchDecode_eq_error.mpr (.inr ⟨w, hw, hr⟩))
  refine ⟨fun hneg hn => ?_, fun d hd => ⟨fun ho => fails (decodeInstr_of_opc_not_mem hd ho), fun ho hstrict => ?_⟩⟩
  · exact fails (decodeInstr_of_decode_eq_none (hn ▸ decode_fault_of_neg hneg))
  have invalidMode (hno : ∀ i, decodeInstr s.cfg w ≠ .ok i) : step s = .next (raiseFail .invalidMode s) :=
    fails ((decodeInstr_ok_or_invalidMode hd ho).resolve_left fun ⟨i, hi⟩ => hno i hi)
  refine ⟨fun hpos hcanon => invalidMode fun i hi => ?_, fun hneg hcanon => invalidMode fun i hi => ?_⟩
  · obtain ⟨hwf, heq⟩ := (strictModesAcceptOnlyCanonicalWords s.cfg i w hstrict hpos).mp hi
    exact hcanon i hwf heq
  · cases hn : s.cfg.negWord with
    | fault => simp [hn, decode_fault_of_neg hneg] at hd
    | floored =>
      obtain ⟨_, hignored⟩ := (decodeInstr_eq_ok_of_decode hd).mp hi
      simp [hn, ignoredNonzero_floored_of_neg hneg, hstrict] at hignored
    | truncated =>
      rw [← decodeInstr_neg_of_truncated hn hneg] at hi
      obtain ⟨hwf, heq⟩ := (strictModesAcceptOnlyCanonicalWords s.cfg i (-w) hstrict (by omega)).mp hi
      exact hcanon hn i hwf heq

/-- Settles O40. -/
theorem statusMovesAsTheStateMachineAllows : Obligations.StatusMovesAsTheStateMachineAllows := by
  unfold Obligations.StatusMovesAsTheStateMachineAllows
  intro s t h
  refine ⟨?_, fun hs => ?_⟩
  · unfold Status.MayBecome
    obtain ⟨hs, rfl⟩ | ⟨hs, _⟩ := step_eq_next.mp h
    · simp [hs]
    · simpa [hs] using step_running_or_returned hs h
  · obtain hst | ⟨_, hst⟩ | ⟨m, hi, hq, hst⟩ | ⟨m, hi, hst⟩ | ⟨hi, hst⟩ := step_status_cases hs h
    · simp [hst]
    · simp [hst]
    · simp [hst, hi, hq]
    · simp [hst, hi]
    · simp [hst, hi]

/-- Settles O42: the loop runs from the state with the status Running, from which a step is that of the instance called. -/
theorem runIsRepeatedStep : Obligations.RunIsRepeatedStep := by
  unfold Obligations.RunIsRepeatedStep
  intro fuel s t hs h
  rw [runUntilSuspend_of_not_terminal hs] at h
  obtain ⟨hret, k, hk, hfuel, hlast, hbefore⟩ := core_run_of_runLoop (enterRunning_status s) h
  have same {j : Nat} (hj : 1 ≤ j) : core.run j (enterRunning s) = core.run j s := by
    obtain ⟨n, rfl⟩ := Nat.exists_eq_add_of_le' hj
    exact core_run_succ_enterRunning hs n
  exact ⟨hret, k, hk, hfuel, (same hk).symm.trans hlast, fun j u hj hjk hu => hbefore j u hjk ((same hj).trans hu)⟩

/-- Settles O43: fuel decides only whether the loop returns. -/
theorem runResultNeedsNoMoreFuel : Obligations.RunResultNeedsNoMoreFuel := by
  unfold Obligations.RunResultNeedsNoMoreFuel
  intro fuel more s t h
  cases hs : s.status.terminal with
  | true => rwa [runUntilSuspend_of_terminal hs] at h ⊢
  | false =>
    rw [runUntilSuspend_of_not_terminal hs] at h ⊢
    exact runLoop_add_fuel more h

/-- Settles O7. -/
theorem decoderFieldsOfEveryWord : Obligations.DecoderFieldsOfEveryWord := by
  unfold Obligations.DecoderFieldsOfEveryWord
  simp only [← fieldsOf_eq]
  exact fun w => ⟨fun h => ⟨decode_fault_of_neg h, decode_floored w, decode_truncated_of_neg h⟩, fun h _ => decode_of_nonneg h⟩

/-- Settles O35. -/
theorem stepRunsTheDecodedInstruction : Obligations.StepRunsTheDecodedInstruction := by
  unfold Obligations.StepRunsTheDecodedInstruction
  exact fun s w i hs hw hi => step_of_fetchDecode_ok hs (fetchDecode_eq_ok.mpr ⟨w, hw, hi⟩)

end Sys2Proof.Machine
end

section
/-! SUPPORT. How an instruction of the format F3RRW ends, by what its parameters and its result are (41_arithmetic.md R100 to R104),
and the result of an addition or multiplication outside a finite word range (R104, 60_exceptions.md R160). -/

namespace Sys2Proof.Machine

/-- While ignored digits are allowed, an instruction is selected by as many digits as its opcode and its modes have (30_encoding.md
R68). -/
theorem usedDigitsSelect_width (i : Instr) : UsedDigitsSelect i (10 ^ (i.width + 1)) :=
  fun hi _ _ hs hw => (decodeInstr_eq_ok_of_not_strict hs (decode_of_nonneg hw)).trans (and_iff_right hi)

theorem runHandler_threeCell_of_error {f : Int → Int → Except FailReason Int} {m1 m2 m3 : Mode} {s : State} {r : FailReason}
    (h : threeCell f m1 m2 m3 s = .error r) :
    runHandler s (threeCell f m1 m2 m3 s) = .next { s with status := .failed r } :=
  h ▸ runHandler_error s r

section
variable {f : Int → Int → Except FailReason Int} {m1 m2 m3 : Mode} {s : State} {a b : Int} {o : Nat}
  (h1 : OperandIs s 1 m1 a) (h2 : OperandIs s 2 m2 b) (h3 : TargetIs s 3 m3 o)
include h1 h2 h3

/-- A result that exists is stored in the target cell (R43, R100). -/
theorem runHandler_threeCell_stores {v : Int} (hv : f a b = .ok v) (ho : ¬ BadAddress s (o : Int)) :
    runHandler s (threeCell f m1 m2 m3 s) = .next { s with mem := s.mem.insert o v, ip := s.ip + 4 } :=
  runHandler_eq_next.mpr (.inl (threeCell_eq_ok.mpr ⟨a, b, o, v, h1, h2, h3, hv, ho, rfl⟩))

/-- The write of a result that exists fails at a target cut off by `MEM_LIMIT` (R43). -/
theorem runHandler_threeCell_of_badAddress {v : Int} (hv : f a b = .ok v) (ho : BadAddress s (o : Int)) :
    runHandler s (threeCell f m1 m2 m3 s) = .next { s with status := .failed .invalidAddress } :=
  runHandler_threeCell_of_error
    (threeCell_eq_error.mpr (.inr ⟨a, h1, .inr ⟨b, h2, .inr ⟨o, h3, .inr ⟨v, hv, ho, rfl⟩⟩⟩⟩))

/-- Where there is no result, the failure is that of its computation, whatever the target is (60_exceptions.md R163). -/
theorem runHandler_threeCell_of_result_error {r : FailReason} (hr : f a b = .error r) :
    runHandler s (threeCell f m1 m2 m3 s) = .next { s with status := .failed r } :=
  runHandler_threeCell_of_error (threeCell_eq_error.mpr (.inr ⟨a, h1, .inr ⟨b, h2, .inr ⟨o, h3, .inl hr⟩⟩⟩))

end

/-- An instruction whose handler is the family's shared one has the family's meaning, for the results its computation answers. -/
theorem threeCellMeaning_of_exec {i : Instr} {m1 m2 m3 : Mode} {f : Int → Int → Int} {defined : State → Int → Prop}
    (g : State → Int → Int → Except FailReason Int)
    (hexec : ∀ s, exec i s = runHandler s (threeCell (g s) m1 m2 m3 s))
    (hg : ∀ s a b, defined s (f a b) → g s a b = .ok (f a b)) : ThreeCellMeaning i m1 m2 m3 f defined := by
  intro s
  rw [hexec s]
  refine ⟨fun a b o h1 h2 h3 hd => ?_, fun r h1 => ?_, fun a r h1 h2 => ?_, fun a b r h1 h2 h3 => ?_⟩
  · exact ⟨runHandler_threeCell_stores h1 h2 h3 (hg s a b hd), runHandler_threeCell_of_badAddress h1 h2 h3 (hg s a b hd)⟩
  · exact runHandler_threeCell_of_error (threeCell_eq_error.mpr (.inl h1))
  · exact runHandler_threeCell_of_error (threeCell_eq_error.mpr (.inr ⟨a, h1, .inl h2⟩))
  · exact runHandler_threeCell_of_error (threeCell_eq_error.mpr (.inr ⟨a, h1, .inr ⟨b, h2, .inl h3⟩⟩))

/-- An unbounded word has every result exactly (R104). -/
theorem narrow_of_unbounded {c : Params} (h : c.wordBits = none) (v : Int) : narrow c v = .ok v := by
  simp [narrow, h]

/-- Under `OVERFLOW_POLICY = fault` a result outside the word range is the failure `Overflow` (60_exceptions.md R160). -/
theorem narrow_of_overflow_fault {c : Params} {v : Int} (hv : inWordRange c v = false) (hp : c.overflow = .fault) :
    narrow c v = .error .overflow := by
  cases hn : c.wordBits with
  | none => simp [inWordRange, hn] at hv
  | some n =>
    have hne : wrapWord n v ≠ v := by simpa [inWordRange, hn] using hv
    simp [narrow, hn, hne, hp]

/-- Under `OVERFLOW_POLICY = wrap` every result is the word that agrees with it (R104, notes/assumptions/4.md). -/
theorem narrow_of_wrap {c : Params} {n : Nat} {v : Int} (hn : c.wordBits = some n) (hp : c.overflow = .wrap) :
    narrow c v = .ok (wrapWord n v) := by
  by_cases hv : wrapWord n v = v <;> simp [narrow, hn, hv, hp]

/-- The wrapped value agrees with the exact one modulo `2 ^ n` (notes/assumptions/4.md). -/
theorem wrapWord_emod (n : Nat) (v : Int) : wrapWord n v % 2 ^ n = v % 2 ^ n := by
  simpa [wrapWord] using Int.bmod_emod (x := v) (m := 2 ^ n)

/-- ADD and MUL run the family's handler on the exact result, narrowed to the word range (R100, R101, R104). -/
theorem exists_exec_eq_threeCell_narrow {m1 m2 m3 : Mode} {a b result : Int} {i : Instr} (s : State)
    (h : i = .add m1 m2 m3 ∧ result = a + b ∨ i = .mul m1 m2 m3 ∧ result = a * b) :
    ∃ f, exec i s = runHandler s (threeCell f m1 m2 m3 s) ∧ f a b = narrow s.cfg result := by
  obtain ⟨rfl, rfl⟩ | ⟨rfl, rfl⟩ := h
  · exact ⟨fun x y => narrow s.cfg (x + y), rfl, rfl⟩
  · exact ⟨fun x y => narrow s.cfg (x * y), rfl, rfl⟩

end Sys2Proof.Machine
end

section
/-! PROOFS. The obligations of the arithmetic family (41_arithmetic.md). -/

namespace Sys2Proof.Machine

/-- Settles O17: an unbounded word has every sum exactly. -/
theorem addMeaning : Obligations.AddMeaning := by
  unfold Obligations.AddMeaning
  refine fun m1 m2 m3 => ⟨?_, rfl, usedDigitsSelect_width _⟩
  exact threeCellMeaning_of_exec (fun s a b => narrow s.cfg (a + b)) (fun _ => rfl)
    fun _ a b hn => narrow_of_unbounded hn (a + b)

/-- Settles O18: an unbounded word has every product exactly. -/
theorem mulMeaning : Obligations.MulMeaning := by
  unfold Obligations.MulMeaning
  refine fun m1 m2 m3 => ⟨?_, rfl, usedDigitsSelect_width _⟩
  exact threeCellMeaning_of_exec (fun s a b => narrow s.cfg (a * b)) (fun _ => rfl)
    fun _ a b hn => narrow_of_unbounded hn (a * b)

/-- Settles O19: the truth value of the order always exists. -/
theorem lessThanMeaning : Obligations.LessThanMeaning := by
  unfold Obligations.LessThanMeaning
  refine fun m1 m2 m3 => ⟨?_, rfl, usedDigitsSelect_width _⟩
  exact threeCellMeaning_of_exec (fun _ a b => .ok (truth (decide (a < b)))) (fun _ => rfl)
    fun _ a b _ => by simp [truth]

/-- Settles O20: the truth value of the equality always exists. -/
theorem equalsMeaning : Obligations.EqualsMeaning := by
  unfold Obligations.EqualsMeaning
  refine fun m1 m2 m3 => ⟨?_, rfl, usedDigitsSelect_width _⟩
  exact threeCellMeaning_of_exec (fun _ a b => .ok (truth (decide (a = b)))) (fun _ => rfl)
    fun _ a b _ => by simp [truth]

/-- Settles O21: outside the word range the narrowing answers `Overflow` or the wrapped value, which the handler then enters or
stores. -/
theorem overflowFollowsItsPolicy : Obligations.OverflowFollowsItsPolicy := by
  unfold Obligations.OverflowFollowsItsPolicy
  intro s n m1 m2 m3 a b o i result hn h1 h2 h3 hi hout
  obtain ⟨f, hexec, hf⟩ := exists_exec_eq_threeCell_narrow s hi
  rw [hexec]
  refine ⟨fun hp => ?_, fun hp ho => ⟨wrapWord n result, ?_, ?_, wrapWord_emod n result⟩⟩
  · exact runHandler_threeCell_of_result_error h1 h2 h3 (hf.trans (narrow_of_overflow_fault hout hp))
  · exact runHandler_threeCell_stores h1 h2 h3 (hf.trans (narrow_of_wrap hn hp)) ho
  · exact inWordRange_of_narrow (narrow_of_wrap hn hp)

/-- Settles O55: inside the word range the narrowing answers the exact result. -/
theorem finiteWordResultsThatFitAreExact : Obligations.FiniteWordResultsThatFitAreExact := by
  unfold Obligations.FiniteWordResultsThatFitAreExact
  intro s n m1 m2 m3 a b o i result _ h1 h2 h3 hi hfit
  obtain ⟨f, hexec, hf⟩ := exists_exec_eq_threeCell_narrow s hi
  have hv : f a b = .ok result := hf.trans (narrow_of_inWordRange hfit)
  rw [hexec]
  exact ⟨runHandler_threeCell_stores h1 h2 h3 hv, runHandler_threeCell_of_badAddress h1 h2 h3 hv⟩

end Sys2Proof.Machine
end

section
/-! SUPPORT. How IN and OUT end, by what their parameter and the queue are (42_io.md R110, R111), and a call of an instance that
waits for input and has none (R110, 40_decode_and_step.md R91). -/

namespace Sys2Proof.Machine

theorem exec_inp_of_error {m1 : Mode} {s : State} {r : FailReason} (h : inputCell m1 s = .error r) :
    exec (.inp m1) s = .next { s with status := .failed r } :=
  runHandler_eq_next.mpr (.inr ⟨r, h, rfl⟩)

section
variable {m1 : Mode} {s : State} {o : Nat} (ho : TargetIs s 1 m1 o)
include ho

/-- An empty queue suspends the instance and nothing else (R110). -/
theorem exec_inp_of_inq_nil (hq : s.inq = []) : exec (.inp m1) s = .next { s with status := .suspended .needsInput } :=
  runHandler_eq_next.mpr (.inl (inputCell_eq_ok.mpr ⟨o, ho, .inl ⟨hq, rfl⟩⟩))

/-- The head of the queue moves to a target that names a cell (R110). -/
theorem exec_inp_of_inq_cons {v : Int} {vs : List Int} (hq : s.inq = v :: vs) (hb : ¬ BadAddress s (o : Int)) :
    exec (.inp m1) s = .next { s with mem := s.mem.insert o v, inq := vs, ip := s.ip + 2 } := by
  have hpop : popInput (putCell o v s) = { s with mem := s.mem.insert o v, inq := vs } := by simp [popInput, putCell, hq]
  have hcell : inputCell m1 s = .ok (advance 2 (popInput (putCell o v s))) :=
    inputCell_eq_ok.mpr ⟨o, ho, .inr ⟨v, vs, hq, hb, rfl⟩⟩
  rw [hpop] at hcell
  exact runHandler_eq_next.mpr (.inl hcell)

/-- The write of a queued value fails at a target cut off by `MEM_LIMIT` (R110, 20_memory.md R43). -/
theorem exec_inp_of_badAddress (hq : s.inq ≠ []) (hb : BadAddress s (o : Int)) :
    exec (.inp m1) s = .next { s with status := .failed .invalidAddress } :=
  exec_inp_of_error (inputCell_eq_error.mpr (.inr ⟨o, ho, hq, hb, rfl⟩))

end

/-- Suspending again for the same kind undoes the entry into Running (40_decode_and_step.md R91). -/
theorem suspend_enterRunning_of_suspended {s : State} {k : SuspendKind} (h : s.status = .suspended k) :
    suspend k (enterRunning s) = s := by
  unfold suspend enterRunning
  rw [← h]

/-- A call of an instance that waits for input and has none returns at once, and nothing has changed (R110). -/
theorem runUntilSuspend_of_needsInput {m1 : Mode} {s : State} {o : Nat} (fuel : Nat) (hs : s.status = .suspended .needsInput)
    (hf : fetchDecode s = .ok (.inp m1)) (ho : TargetIs s 1 m1 o) (hq : s.inq = []) :
    runUntilSuspend (fuel + 1) s = some s := by
  have hexec : exec (.inp m1) (enterRunning s) = .next (suspend .needsInput (enterRunning s)) :=
    exec_inp_of_inq_nil (s := enterRunning s) ho hq
  rw [suspend_enterRunning_of_suspended hs] at hexec
  calc runUntilSuspend (fuel + 1) s
      = runLoop (fuel + 1) (enterRunning s) := runUntilSuspend_of_not_terminal (by rw [hs]; rfl)
    _ = runLoop fuel s := runLoop_succ (enterRunning_status s) (instructionStep_eq_next.mpr (.inr ⟨_, hf, hexec⟩))
    _ = some s := runLoop_of_ne (by simp [hs])

end Sys2Proof.Machine
end

section
/-! PROOFS. The obligations of the input and output family (42_io.md). -/

namespace Sys2Proof.Machine

/-- Settles O22: the target and the queue decide how IN ends, and a step from a suspension runs it with the status Running. -/
theorem inputMeaning : Obligations.InputMeaning := by
  unfold Obligations.InputMeaning
  refine fun m1 => ⟨fun s o ho => ⟨exec_inp_of_inq_nil ho, fun v vs hq => ⟨exec_inp_of_inq_cons ho hq, ?_⟩⟩,
    fun s r hr => exec_inp_of_error (inputCell_eq_error.mpr (.inl hr)),
    fun s o fuel hs hf ho => ⟨runUntilSuspend_of_needsInput fuel hs hf ho, fun v vs hq hb => ?_⟩,
    rfl, usedDigitsSelect_width _⟩
  · exact exec_inp_of_badAddress ho (by simp [hq])
  · rw [step_of_fetchDecode_ok (by rw [hs]; rfl) hf]
    exact exec_inp_of_inq_cons (s := enterRunning s) ho hq hb

/-- Settles O23: OUT completes or fails as its operand does. -/
theorem outputMeaning : Obligations.OutputMeaning := by
  unfold Obligations.OutputMeaning
  refine fun m1 => ⟨fun s v hv => ?_, fun s r hr => ?_, rfl, usedDigitsSelect_width _⟩
  · exact runHandler_eq_next.mpr (.inl (outputCell_eq_ok.mpr ⟨v, hv, rfl⟩))
  · exact runHandler_eq_next.mpr (.inr ⟨r, outputCell_eq_error.mpr hr, rfl⟩)

end Sys2Proof.Machine
end

section
/-! SUPPORT. How a conditional jump ends, by what its two operands are (43_control.md R120, R121), and the failure of a word with
an ignored digit under `STRICT_MODES` (30_encoding.md R68). -/

namespace Sys2Proof.Machine

/-- A handler's failure is entered with nothing else changed (60_exceptions.md R162). -/
theorem runHandler_of_error {s : State} {x : Except FailReason State} {r : FailReason} (h : x = .error r) :
    runHandler s x = .next { s with status := .failed r } :=
  h ▸ runHandler_error s r

section
variable {taken : Int → Bool} {m1 m2 : Mode} {s : State} {c d : Int} (h1 : OperandIs s 1 m1 c) (h2 : OperandIs s 2 m2 d)
include h1 h2

/-- A taken jump sets the pointer to a target that is not negative (R120, R121). -/
theorem runHandler_condJump_of_taken (ht : taken c = true) (hd : 0 ≤ d) :
    runHandler s (condJump taken m1 m2 s) = .next { s with ip := d.toNat } :=
  runHandler_eq_next.mpr (.inl (condJump_eq_ok.mpr ⟨c, d, h1, h2, .inl ⟨ht, hd, rfl⟩⟩))

/-- A taken jump fails at a negative target (R123). -/
theorem runHandler_condJump_of_negative_target (ht : taken c = true) (hd : d < 0) :
    runHandler s (condJump taken m1 m2 s) = .next { s with status := .failed .invalidAddress } :=
  runHandler_of_error (condJump_eq_error.mpr (.inr ⟨c, h1, .inr ⟨d, h2, ht, hd, rfl⟩⟩))

/-- A jump not taken advances past its three cells, whatever the target is (R120, R121). -/
theorem runHandler_condJump_of_not_taken (ht : taken c = false) :
    runHandler s (condJump taken m1 m2 s) = .next { s with ip := s.ip + 3 } :=
  runHandler_eq_next.mpr (.inl (condJump_eq_ok.mpr ⟨c, d, h1, h2, .inr ⟨ht, rfl⟩⟩))

end

/-- An instruction whose handler is the shared conditional jump has the family's meaning for its condition. -/
theorem jumpMeaning_of_exec {i : Instr} {m1 m2 : Mode} {taken : Int → Prop} [DecidablePred taken]
    (hexec : ∀ s, exec i s = runHandler s (condJump (fun c => decide (taken c)) m1 m2 s)) : JumpMeaning i m1 m2 taken := by
  intro s
  rw [hexec s]
  refine ⟨fun c d h1 h2 => ⟨fun ht hd => ?_, fun ht hd => ?_, fun ht => ?_⟩, fun r h1 => ?_, fun c r h1 h2 => ?_⟩
  · exact runHandler_condJump_of_taken h1 h2 (decide_eq_true ht) hd
  · exact runHandler_condJump_of_negative_target h1 h2 (decide_eq_true ht) hd
  · exact runHandler_condJump_of_not_taken h1 h2 (decide_eq_false ht)
  · exact runHandler_of_error (condJump_eq_error.mpr (.inl h1))
  · exact runHandler_of_error (condJump_eq_error.mpr (.inr ⟨c, h1, .inl h2⟩))

/-- Under `STRICT_MODES` a word with a digit above those its instruction uses fails with `InvalidMode` (R68). -/
theorem decodeInstr_of_unused_digit {c : Params} {w : Int} {i : Instr} (hs : c.strictModes = true) (hw : 0 ≤ w)
    (hi : Instr.ofDecoded (fieldsOf w) = some i) (hlong : 10 ^ (i.width + 1) ≤ w) :
    decodeInstr c w = .error .invalidMode := by
  have hignored : ignoredNonzero c.negWord w (fieldsOf w) i = true := by
    rw [← Bool.not_eq_false, ignoredNonzero_eq_false_iff hw]
    exact Int.not_lt.mpr hlong
  simp [decodeInstr, decode_of_nonneg hw, hi, hs, hignored]

end Sys2Proof.Machine
end

section
/-! PROOFS. The obligations of the control family (43_control.md). -/

namespace Sys2Proof.Machine

/-- Settles O24: JT is the shared conditional jump on a condition that is not 0. -/
theorem jumpIfTrueMeaning : Obligations.JumpIfTrueMeaning := by
  unfold Obligations.JumpIfTrueMeaning
  exact fun m1 m2 => ⟨jumpMeaning_of_exec fun _ => rfl, rfl, usedDigitsSelect_width _⟩

/-- Settles O25: JF is the shared conditional jump on a condition of exactly 0. -/
theorem jumpIfFalseMeaning : Obligations.JumpIfFalseMeaning := by
  unfold Obligations.JumpIfFalseMeaning
  exact fun m1 m2 => ⟨jumpMeaning_of_exec fun _ => rfl, rfl, usedDigitsSelect_width _⟩

/-- Settles O26: HLT's handler never fails, a Halted instance is terminal, and 199 has a digit above the two HLT uses. -/
theorem haltMeaning : Obligations.HaltMeaning := by
  unfold Obligations.HaltMeaning
  refine ⟨fun s => runHandler_ok s (halt s), fun s fuel hs => ?_, rfl, usedDigitsSelect_width _, fun c hs => ?_⟩
  · exact runUntilSuspend_of_terminal (by rw [hs]; rfl)
  · exact decodeInstr_of_unused_digit (i := .hlt) hs (by decide) rfl (by decide)

end Sys2Proof.Machine
end

section
/-! SUPPORT. What the host's operations keep on an instance (44_host_interface.md R130 to R137): whatever a step and the entry into
Running keep, a call keeps. -/

namespace Sys2Proof.Machine

/-- What every step keeps, the loop of a call keeps (40_decode_and_step.md R91). -/
theorem runLoop_keeps {P : State → Prop} (hstep : ∀ s t, P s → step s = .next t → P t) {fuel : Nat} {s t : State} (hs : P s)
    (h : runLoop fuel s = some t) : P t := by
  induction fuel generalizing s with
  | zero =>
    by_cases hr : s.status = .running
    · simp [runLoop_zero hr] at h
    · exact Option.some.inj ((runLoop_of_ne hr).symm.trans h) ▸ hs
  | succ fuel ih =>
    by_cases hr : s.status = .running
    · obtain ⟨u, hu, hloop⟩ := exists_step_runLoop_succ hr
      exact ih (hstep s u hs hu) ((hloop fuel).symm.trans h)
    · exact Option.some.inj ((runLoop_of_ne hr).symm.trans h) ▸ hs

/-- A call keeps the canonical form of the memory, and the parameters. -/
theorem runUntilSuspend_keeps_inv {fuel : Nat} {s t : State} (hs : s.Inv) (h : runUntilSuspend fuel s = some t) :
    t.Inv ∧ t.cfg = s.cfg := by
  cases hterm : s.status.terminal with
  | true =>
    obtain rfl : s = t := Option.some.inj ((runUntilSuspend_of_terminal hterm).symm.trans h)
    exact ⟨hs, rfl⟩
  | false =>
    rw [runUntilSuspend_of_not_terminal hterm] at h
    refine runLoop_keeps (P := fun u => u.Inv ∧ u.cfg = s.cfg) (fun u v ⟨hu, hc⟩ huv => ?_) (s := enterRunning s) ⟨hs, rfl⟩ h
    obtain ⟨hv, hvc⟩ := stepKeepsTheInvariant u v hu huv
    exact ⟨hv, hvc.trans hc⟩

theorem eq_ok_of_toOption {ε α : Type} {x : Except ε α} {a : α} (h : x.toOption = some a) : x = .ok a := by
  cases x with
  | error e => simp [Except.toOption] at h
  | ok b => simpa [Except.toOption] using h

/-- Each host operation keeps the canonical form of the memory, and the parameters. -/
theorem applyHostOp_keeps_inv {op : HostOp} {s t : State} (hs : s.Inv) (h : applyHostOp s op = some t) :
    t.Inv ∧ t.cfg = s.cfg := by
  cases op with
  | load program =>
    obtain rfl : loadProgram s program = t := Option.some.inj h
    exact ⟨newInstance_mem_wf s.cfg program, rfl⟩
  | push v =>
    obtain ⟨_, rfl⟩ := pushInput_eq_ok.mp (eq_ok_of_toOption h)
    exact ⟨hs, rfl⟩
  | run fuel => exact runUntilSuspend_keeps_inv hs h

/-- Under an unbounded queue every push is accepted (R133). -/
theorem pushInput_of_unbounded {s : State} (h : s.cfg.queueDepth = none) (v : Int) :
    pushInput s v = .ok { s with inq := s.inq ++ [v] } :=
  pushInput_eq_ok.mpr ⟨by simp [queueIsFull, h], rfl⟩

end Sys2Proof.Machine
end

section
/-! SUPPORT. The lengths of the loader's lists (44_host_interface.md R138), and the cells of a patched program (R139). -/

namespace Sys2Proof.Machine

/-- A text splits into one item more than it has commas (R138). -/
theorem splitCommas_length (cs : List Char) : (splitCommas cs).length = cs.count ',' + 1 := by
  induction cs with
  | nil => rfl
  | cons c cs ih =>
    unfold splitCommas
    by_cases hc : c = ','
    · simp [hc, ih]
    · cases hs : splitCommas cs with
      | nil => simp [hs] at ih
      | cons item items => simpa [hc, hs] using ih

/-- Items that parse have one value each (R138). -/
theorem parseItems_length {items : List (List Char)} {vs : List Int} (h : parseItems items = some vs) :
    vs.length = items.length := by
  induction items generalizing vs with
  | nil => simp [← Option.some.inj h]
  | cons item items ih =>
    obtain ⟨v, _, h⟩ := Option.bind_eq_some_iff.mp h
    obtain ⟨ws, hws, rfl⟩ := Option.map_eq_some_iff.mp h
    simp [ih hws]

/-- Replacing an element that a program has writes its cell of the new instance (R139). -/
theorem newInstance_mem_set (c : Params) {program : List Int} {a : Nat} (ha : a < program.length) (v : Int) :
    (newInstance c (program.set a v)).mem = (newInstance c program).mem.insert a v := by
  refine Memory.ext_of_wf (newInstance_mem_wf c _) (Memory.insert_wf (newInstance_mem_wf c program) a v) fun b => ?_
  rw [newInstance_lookup, Memory.lookup_insert, newInstance_lookup]
  by_cases hb : b = a
  · simp [hb, ha]
  · simp [hb, List.getElem?_set_ne (Ne.symm hb)]

end Sys2Proof.Machine
end

section
/-! SUPPORT. The enumeration of the permutations (44_host_interface.md R145, 92_eei_decisions.md D30): which lists it holds, and
their order. -/

namespace Sys2Proof.Machine

/-- Every element is picked once, in the order of the list. -/
theorem picks_map_fst (l : List Int) : (picks l).map Prod.fst = l := by
  induction l with
  | nil => rfl
  | cons x xs ih => simpa [picks, Function.comp_def] using ih

/-- An element picked and the rest are a rearrangement of the list. -/
theorem perm_of_mem_picks {l rest : List Int} {x : Int} (h : (x, rest) ∈ picks l) : (x :: rest).Perm l := by
  induction l generalizing rest with
  | nil => simp [picks] at h
  | cons y ys ih =>
    obtain h | h := List.mem_cons.mp h
    · obtain ⟨rfl, rfl⟩ := Prod.mk.inj h
      exact .refl _
    · obtain ⟨⟨z, zs⟩, hz, heq⟩ := List.mem_map.mp h
      obtain ⟨rfl, rfl⟩ := Prod.mk.inj heq
      exact (List.Perm.swap y z zs).trans ((ih hz).cons y)

/-- The rest beside a picked element keeps the order of the list. -/
theorem sublist_of_mem_picks {l rest : List Int} {x : Int} (h : (x, rest) ∈ picks l) : rest.Sublist l := by
  induction l generalizing rest with
  | nil => simp [picks] at h
  | cons y ys ih =>
    obtain h | h := List.mem_cons.mp h
    · obtain ⟨_, rfl⟩ := Prod.mk.inj h
      exact List.sublist_cons_self y rest
    · obtain ⟨⟨z, zs⟩, hz, heq⟩ := List.mem_map.mp h
      obtain ⟨rfl, rfl⟩ := Prod.mk.inj heq
      exact (ih hz).cons_cons y

/-- Every element can be picked. -/
theorem exists_mem_picks {l : List Int} {x : Int} (h : x ∈ l) : ∃ rest, (x, rest) ∈ picks l := by
  rw [← picks_map_fst l] at h
  obtain ⟨⟨_, rest⟩, hp, rfl⟩ := List.mem_map.mp h
  exact ⟨rest, hp⟩

/-- An arrangement is a picked element before an arrangement of the rest. -/
theorem cons_mem_arrangements_succ {n : Nat} {l q : List Int} {x : Int} :
    x :: q ∈ arrangements (n + 1) l ↔ ∃ rest, (x, rest) ∈ picks l ∧ q ∈ arrangements n rest := by
  simp [arrangements]

/-- No arrangement of at least one element is empty. -/
theorem nil_not_mem_arrangements_succ (n : Nat) (l : List Int) : [] ∉ arrangements (n + 1) l := by
  simp [arrangements]

/-- The arrangements of as many elements as a list has are its rearrangements (R145). -/
theorem mem_arrangements_iff_perm {n : Nat} {set : List Int} (hn : set.length = n) {l : List Int} :
    l ∈ arrangements n set ↔ l.Perm set := by
  induction n generalizing set l with
  | zero =>
    obtain rfl := List.length_eq_zero_iff.mp hn
    simp [arrangements]
  | succ n ih =>
    cases l with
    | nil =>
      refine iff_of_false (nil_not_mem_arrangements_succ n set) fun hp => ?_
      simp [← hp.length_eq] at hn
    | cons x q =>
      have rest_length {rest : List Int} (hr : (x, rest) ∈ picks set) : rest.length = n := by
        simpa [hn] using (perm_of_mem_picks hr).length_eq
      rw [cons_mem_arrangements_succ]
      constructor
      · rintro ⟨rest, hr, hq⟩
        exact (((ih (rest_length hr)).mp hq).cons x).trans (perm_of_mem_picks hr)
      · intro hp
        obtain ⟨rest, hr⟩ := exists_mem_picks (hp.subset List.mem_cons_self)
        exact ⟨rest, hr, (ih (rest_length hr)).mpr (hp.trans (perm_of_mem_picks hr).symm).cons_inv⟩

/-- The arrangements of an ascending list rise in lexicographic order: by their first elements, and for equal ones by the
rest (D30). -/
theorem arrangements_pairwise_lex (n : Nat) {l : List Int} (h : l.Pairwise (· < ·)) :
    (arrangements n l).Pairwise (List.Lex (· < ·)) := by
  induction n generalizing l with
  | zero => exact List.pairwise_singleton _ _
  | succ n ih =>
    refine List.pairwise_flatMap.mpr ⟨fun p hp => ?_, ?_⟩
    · exact List.pairwise_map.mpr ((ih (h.sublist (sublist_of_mem_picks hp))).imp .cons)
    · have hfirst : (picks l).Pairwise fun p q => p.1 < q.1 := List.pairwise_map.mp ((picks_map_fst l).symm ▸ h)
      refine hfirst.imp fun hpq a ha b hb => ?_
      obtain ⟨_, _, rfl⟩ := List.mem_map.mp ha
      obtain ⟨_, _, rfl⟩ := List.mem_map.mp hb
      exact .rel hpq

end Sys2Proof.Machine
end

section
/-! SUPPORT. What the search has found after some candidates (44_host_interface.md R145), and that each further candidate keeps
it true. -/

namespace Sys2Proof.Machine

/-- `v` is the greatest signal of the candidates `l`, none of which ran out of fuel, and `order` the first that gives it. -/
structure FirstMaximum (run : List Int → PipelineResult) (l : List (List Int)) (v : Int) (order : List Int) : Prop where
  /-- The candidate gives the signal. -/
  signal : run order = .signal v
  /-- Every candidate has a result. -/
  ran : ∀ q ∈ l, run q ≠ .notYet
  /-- No candidate gives a greater signal. -/
  le : ∀ q ∈ l, ∀ w, run q = .signal w → w ≤ v
  /-- The candidates before it give smaller signals. -/
  first : ∃ before after, l = before ++ order :: after ∧ ∀ q ∈ before, ∀ w, run q = .signal w → w < v

/-- What a search result says of the candidates `l` considered so far. -/
def SearchResult.Summarises (run : List Int → PipelineResult) (l : List (List Int)) : SearchResult → Prop
  | .best v order => FirstMaximum run l v order
  | .none => ∀ q ∈ l, run q = .failed
  | .notYet => ∃ q ∈ l, run q = .notYet

section
variable {run : List Int → PipelineResult} {l : List (List Int)} {order q : List Int} {v w : Int}

/-- A failed candidate, or one with no greater signal, leaves the first maximum as it is. -/
theorem FirstMaximum.append_le (h : FirstMaximum run l v order) (hq : run q ≠ .notYet)
    (hle : ∀ w, run q = .signal w → w ≤ v) : FirstMaximum run (l ++ [q]) v order := by
  obtain ⟨before, after, hl, hbefore⟩ := h.first
  exact ⟨h.signal, List.forall_mem_append.mpr ⟨h.ran, List.forall_mem_singleton.mpr hq⟩,
    List.forall_mem_append.mpr ⟨h.le, List.forall_mem_singleton.mpr hle⟩, before, after ++ [q], by simp [hl], hbefore⟩

/-- A candidate with a signal greater than every one before it is the new first maximum. -/
theorem FirstMaximum.append_self (hran : ∀ p ∈ l, run p ≠ .notYet) (hlt : ∀ p ∈ l, ∀ w, run p = .signal w → w < v)
    (hq : run q = .signal v) : FirstMaximum run (l ++ [q]) v q := by
  refine ⟨hq, List.forall_mem_append.mpr ⟨hran, ?_⟩, List.forall_mem_append.mpr ⟨fun p hp w hw => (hlt p hp w hw).le, ?_⟩,
    l, [], rfl, hlt⟩
  · simp [hq]
  · simp [hq]

/-- Considering one more candidate keeps the summary (R145): the running best, no result, and no result for want of fuel. -/
theorem SearchResult.Summarises.consider {acc : SearchResult} (h : acc.Summarises run l) (q : List Int) :
    (acc.consider q (run q)).Summarises run (l ++ [q]) := by
  cases acc with
  | notYet =>
    obtain ⟨p, hp, hrun⟩ := h
    exact ⟨p, List.mem_append_left [q] hp, hrun⟩
  | none =>
    have h : ∀ p ∈ l, run p = .failed := h
    cases hq : run q with
    | notYet => exact ⟨q, by simp, hq⟩
    | failed => exact List.forall_mem_append.mpr ⟨h, List.forall_mem_singleton.mpr hq⟩
    | signal v =>
      exact FirstMaximum.append_self (fun p hp => by simp [h p hp]) (fun p hp => by simp [h p hp]) hq
  | best v order =>
    have h : FirstMaximum run l v order := h
    cases hq : run q with
    | notYet => exact ⟨q, by simp, hq⟩
    | failed => exact h.append_le (by simp [hq]) (by simp [hq])
    | signal w =>
      by_cases hvw : v < w
      · simp only [SearchResult.consider, if_pos hvw]
        exact FirstMaximum.append_self h.ran (fun p hp u hu => (h.le p hp u hu).trans_lt hvw) hq
      · simp only [SearchResult.consider, if_neg hvw]
        exact h.append_le (by simp [hq]) fun u hu => by
          obtain rfl : w = u := PipelineResult.signal.inj (hq.symm.trans hu)
          exact Int.not_lt.mp hvw

end

/-- The search's result sums up all the permutations (R145). -/
theorem search_summarises (run : List Int → PipelineResult) (set : List Int) :
    (search run set).Summarises run (permutations set) := by
  unfold search
  induction permutations set using List.reverseRecOn with
  | nil => simp [SearchResult.Summarises]
  | append_singleton l q ih =>
    rw [List.foldl_append]
    exact ih.consider q

end Sys2Proof.Machine
end

section
/-! SUPPORT. The instances of a pipeline (44_host_interface.md R141) and how its runs end (R142 to R144). -/

namespace Sys2Proof.Machine

/-- Under an unbounded queue the pushed values stand at the tail in their order (R133). -/
theorem pushAll_of_unbounded (vs : List Int) {s : State} (h : s.cfg.queueDepth = none) :
    pushAll vs s = some { s with inq := s.inq ++ vs } := by
  induction vs generalizing s with
  | nil => simp [pushAll]
  | cons v vs ih =>
    have htail := ih (s := { s with inq := s.inq ++ [v] }) h
    simpa [pushAll, pushInput_of_unbounded h, Except.toOption] using htail

/-- A stage is a new instance with its phase setting queued, and after it the initial signal for instance 0 (R141). -/
theorem buildStage_of_unbounded {c : Params} (h : c.queueDepth = none) (program : List Int) (first : Bool) (phase : Int) :
    buildStage c program first phase =
      some { newInstance c program with inq := if first then [phase, 0] else [phase] } :=
  pushAll_of_unbounded _ (s := newInstance c program) h

/-- The instances, one per phase setting; the head alone may be instance 0 (R141). -/
theorem buildFrom_of_unbounded {c : Params} (h : c.queueDepth = none) (program : List Int) (first : Bool) (phases : List Int) :
    ∃ vms, buildFrom c program first phases = some vms ∧ vms.length = phases.length ∧
      ∀ (k : Nat) (phase : Int), phases[k]? = some phase →
        vms[k]? = some { newInstance c program with inq := if first ∧ k = 0 then [phase, 0] else [phase] } := by
  induction phases generalizing first with
  | nil => exact ⟨[], rfl, rfl, by simp⟩
  | cons ph phs ih =>
    obtain ⟨vms, hvms, hlen, hget⟩ := ih false
    refine ⟨_, by rw [buildFrom, buildStage_of_unbounded h, hvms]; rfl, by simp [hlen], fun k phase hk => ?_⟩
    cases k with
    | zero =>
      obtain rfl : ph = phase := by simpa using hk
      simp
    | succ k => simpa using hget k phase (by simpa using hk)

section
variable {fuel : Nat} {s t : State}

/-- A stage whose call fails is a failed candidate (R144). -/
theorem runStage_of_failed (calls : Nat) {r : FailReason} (h : runUntilSuspend fuel s = some t) (ht : t.status = .failed r) :
    runStage (calls + 1) fuel s = .failed := by
  simp [runStage, h, ht]

/-- A stage whose call produces an output is resumed at once (R142). -/
theorem runStage_of_producedOutput (calls : Nat) (h : runUntilSuspend fuel s = some t)
    (ht : t.status = .suspended .producedOutput) : runStage (calls + 1) fuel s = runStage calls fuel t := by
  simp [runStage, h, ht]

/-- A stage that fails at some call, after any number of outputs, is a failed candidate (R144). -/
theorem runStage_of_failsAtCall {k : Nat} (h : FailsAtCall fuel k s) (calls : Nat) :
    runStage (calls + k + 1) fuel s = .failed := by
  induction k generalizing s with
  | zero =>
    obtain ⟨t, r, hrun, ht⟩ := h
    exact runStage_of_failed calls hrun ht
  | succ k ih =>
    obtain ⟨t, hrun, ht, hk⟩ := h
    exact (runStage_of_producedOutput (calls + k + 1) hrun ht).trans (ih hk)

/-- A failed stage fails the run (R144). -/
theorem runStages_of_failed {calls : Nat} {carried : Option Int} {first : State} {rest : List State}
    (hpush : pushAll carried.toList first = some s) (h : runStage calls fuel s = .failed) :
    runStages calls fuel carried (first :: rest) = .failed := by
  simp [runStages, hpush, h]

/-- A stage's signal is carried to the stages after it (R142). -/
theorem runStages_of_signal {calls : Nat} {carried : Option Int} {first : State} {rest : List State} {v : Int}
    (hpush : pushAll carried.toList first = some s) (h : runStage calls fuel s = .signal v) :
    runStages calls fuel carried (first :: rest) = runStages calls fuel (some v) rest := by
  simp [runStages, hpush, h]

/-- A turn whose instance fails ends the run as failed; such an instance has not halted before, or it would not be called
(R143, R144). -/
theorem FeedbackRing.step_of_failed {r : FeedbackRing} {reason : FailReason} (hs : r.vms[r.turn]? = some s)
    (h : runUntilSuspend fuel s = some t) (ht : t.status = .failed reason) : r.step fuel = .done .failed := by
  have hhalt : s.status ≠ .halted := fun hhalt => by
    obtain rfl : s = t := Option.some.inj ((runUntilSuspend_of_terminal (by rw [hhalt]; rfl)).symm.trans h)
    simp [hhalt] at ht
  simp [FeedbackRing.step, hs, hhalt, h, ht]

end

/-- A turn that ends the run ends it with that result (R143). -/
theorem FeedbackRing.run_of_done {fuel : Nat} {r : FeedbackRing} {res : PipelineResult} (turns : Nat)
    (h : r.step fuel = .done res) : FeedbackRing.run (turns + 1) fuel r = res := by
  simp [FeedbackRing.run, h]

/-- A turn that goes on leaves the run to the turns after it (R143). -/
theorem FeedbackRing.run_of_go {fuel : Nat} {r r' : FeedbackRing} (turns : Nat) (h : r.step fuel = .go r') :
    FeedbackRing.run (turns + 1) fuel r = FeedbackRing.run turns fuel r' := by
  simp [FeedbackRing.run, h]

end Sys2Proof.Machine
end

section
/-! PROOFS. The obligations of the host interface family (44_host_interface.md). -/

namespace Sys2Proof.Machine

/-- Settles O14, by induction on the sequence: each operation keeps both. -/
theorem hostOperationsKeepTheInvariant : Obligations.HostOperationsKeepTheInvariant := by
  unfold Obligations.HostOperationsKeepTheInvariant
  intro ops
  induction ops with
  | nil =>
    intro s t hs h
    obtain rfl : s = t := Option.some.inj h
    exact ⟨hs, rfl⟩
  | cons op ops ih =>
    intro s t hs h
    obtain ⟨u, hu, h⟩ := Option.bind_eq_some_iff.mp h
    obtain ⟨huinv, hucfg⟩ := applyHostOp_keeps_inv hs hu
    obtain ⟨htinv, htcfg⟩ := ih u t huinv h
    exact ⟨htinv, htcfg.trans hucfg⟩

/-- Settles O47: a value per item, and an item more than commas. -/
theorem parsedProgramHasOneValuePerItem : Obligations.ParsedProgramHasOneValuePerItem := by
  unfold Obligations.ParsedProgramHasOneValuePerItem
  exact fun text program h => (parseItems_length h).trans (splitCommas_length (trim text))

/-- Settles O48: each replaced element is a written cell. -/
theorem patchEqualsWritingTheCells : Obligations.PatchEqualsWritingTheCells := by
  unfold Obligations.PatchEqualsWritingTheCells patchNounVerb
  intro c program noun verb hlen
  rw [newInstance_mem_set c (by simpa using hlen), newInstance_mem_set c (by omega)]

/-- Settles O49. -/
theorem permutationsAreAllAndInOrder : Obligations.PermutationsAreAllAndInOrder := by
  unfold Obligations.PermutationsAreAllAndInOrder
  exact ⟨fun _ _ => mem_arrangements_iff_perm rfl, fun set h => arrangements_pairwise_lex set.length h⟩

/-- Settles O50: the result sums up the candidates, and the three summaries exclude each other. -/
theorem searchReportsTheFirstMaximum : Obligations.SearchReportsTheFirstMaximum := by
  unfold Obligations.SearchReportsTheFirstMaximum
  intro run set
  have hsum := search_summarises run set
  cases hres : search run set with
  | best v order =>
    obtain ⟨hsignal, hran, hle, before, after, hl, hbefore⟩ : FirstMaximum run (permutations set) v order := by
      rwa [hres] at hsum
    have hmem : order ∈ permutations set := by simp [hl]
    refine ⟨?_, iff_of_false (by simp) fun hall => ?_, iff_of_false (by simp) ?_, fun _ _ => ⟨v, order, rfl⟩⟩
    · rintro _ _ ⟨⟩
      exact ⟨hsignal, hle, before, after, hl, hbefore⟩
    · simp [hall order hmem] at hsignal
    · exact fun ⟨q, hq, hrun⟩ => hran q hq hrun
  | none =>
    have hall : ∀ q ∈ permutations set, run q = .failed := by rwa [hres] at hsum
    refine ⟨by simp, iff_of_true rfl hall, iff_of_false (by simp) ?_, ?_⟩
    · rintro ⟨q, hq, hrun⟩
      simp [hall q hq] at hrun
    · rintro _ ⟨q, hq, v, hrun⟩
      simp [hall q hq] at hrun
  | notYet =>
    obtain ⟨q, hq, hrun⟩ : ∃ q ∈ permutations set, run q = .notYet := by rwa [hres] at hsum
    refine ⟨by simp, iff_of_false (by simp) fun hall => ?_, iff_of_true rfl ⟨q, hq, hrun⟩, fun hran => ?_⟩
    · simp [hall q hq] at hrun
    · exact absurd hrun (hran q hq)

/-- Settles O51: instance 0 is the head, built with the initial signal. -/
theorem pipelineInstancesAreSeeded : Obligations.PipelineInstancesAreSeeded := by
  unfold Obligations.PipelineInstancesAreSeeded
  intro c program phases h
  simpa [buildPipeline] using buildFrom_of_unbounded h program true phases

/-- Settles O52. -/
theorem failedInstanceFailsTheCandidate : Obligations.FailedInstanceFailsTheCandidate := by
  unfold Obligations.FailedInstanceFailsTheCandidate
  refine fun fuel => ⟨fun k s hk calls => ?_, fun _ _ _ _ _ _ => runStages_of_signal, fun turns r s hs hfail => ?_,
    fun turns _ _ => FeedbackRing.run_of_go turns⟩
  · have hstage := runStage_of_failsAtCall hk calls
    exact ⟨hstage, fun _ _ _ hpush => runStages_of_failed hpush hstage⟩
  · obtain ⟨t, reason, hrun, ht⟩ := hfail
    exact FeedbackRing.run_of_done turns (FeedbackRing.step_of_failed hs hrun ht)

/-- Settles O44: an unbounded queue is never full, and a call on a terminal instance returns it as it is. -/
theorem pushInputAppends : Obligations.PushInputAppends := by
  unfold Obligations.PushInputAppends
  exact fun s v h => ⟨pushInput_of_unbounded h v, fun hs _ => runUntilSuspend_of_terminal hs⟩

/-- Settles O45: `read_memory` reports what a read of the cell answers. -/
theorem readMemoryReportsTheCell : Obligations.ReadMemoryReportsTheCell := by
  unfold Obligations.ReadMemoryReportsTheCell
  intro s a
  have reports {x : Except FailReason Int} (hx : memRead s a = x) : readMemory s a = x.mapError hostErrorOf :=
    hx ▸ readMemory_eq_memRead s a
  exact ⟨fun ha => reports (memRead_of_badAddress (.inl ha)), fun l hl ha => reports (memRead_of_badAddress (.inr ⟨l, hl, ha⟩)),
    fun v hv => reports (memRead_eq_ok.mpr hv),
    fun hok hn hf => reports (memRead_eq_error.mpr (.inr ⟨hok, hn, hf, rfl⟩))⟩

end Sys2Proof.Machine
end

section
/-! SUPPORT. Which statuses are terminal, the step at a terminal instance, and the step that ends in a failure
(60_exceptions.md R162, R164). -/

namespace Sys2Proof.Machine

/-- The terminal statuses are Halted and the failures (R90). -/
theorem Status.terminal_eq_true {st : Status} : st.terminal = true ↔ st = .halted ∨ ∃ r, st = .failed r := by
  cases st <;> simp [Status.terminal]

/-- A step of a terminal instance leaves it as it is (R164). -/
theorem step_of_terminal {s : State} (h : s.status.terminal = true) : step s = .next s :=
  step_eq_next.mpr (.inl ⟨h, rfl⟩)

/-- A step that ends an instance that is not terminal as failed is that failure's entry, whether the fetch, the decode or the
instruction failed (R162). -/
theorem step_eq_raiseFail {s t : State} {r : FailReason} (hs : s.status.terminal = false) (h : step s = .next t)
    (ht : t.status = .failed r) : t = raiseFail r s := by
  cases hf : fetchDecode s with
  | error r' =>
    obtain rfl : raiseFail r' s = t := Host.Outcome.next.inj ((step_of_fetchDecode_error hs hf).symm.trans h)
    obtain rfl : r' = r := by simpa using ht
    rfl
  | ok i =>
    rw [step_of_fetchDecode_ok hs hf] at h
    exact exec_eq_raiseFail (s := enterRunning s) rfl h ht

end Sys2Proof.Machine
end

section
/-! PROOFS. The obligations of the exceptions family (60_exceptions.md). -/

namespace Sys2Proof.Machine

/-- Settles O37: a terminal instance stays, and every handler's failure is a status entered. -/
theorem stepNeverStops : Obligations.StepNeverStops := by
  unfold Obligations.StepNeverStops
  intro s
  cases hs : s.status.terminal with
  | true => exact ⟨s, step_of_terminal hs⟩
  | false =>
    obtain ⟨t, ht⟩ := instructionStep_next (enterRunning s)
    exact ⟨t, step_eq_next.mpr (.inr ⟨hs, ht⟩)⟩

/-- Settles O38. -/
theorem failureChangesOnlyTheStatus : Obligations.FailureChangesOnlyTheStatus := by
  unfold Obligations.FailureChangesOnlyTheStatus
  exact fun s t r => step_eq_raiseFail

/-- Settles O41: a push changes only the queue, and a loaded program is a new instance of the old parameters. -/
theorem terminalInstancesExecuteNothing : Obligations.TerminalInstancesExecuteNothing := by
  unfold Obligations.TerminalInstancesExecuteNothing
  intro s hs
  have hterm : s.status.terminal = true := Status.terminal_eq_true.mpr hs
  refine ⟨step_of_terminal hterm, fun _ => runUntilSuspend_of_terminal hterm, fun v t h => ?_, fun program => ?_⟩
  · obtain ⟨_, rfl⟩ := pushInput_eq_ok.mp h
    rfl
  · rw [loadProgram_eq, newInstance_status]

end Sys2Proof.Machine
end
